-- ==== Sys2Proof/Word.lean ====
section
/-! DEFINITION. The types of values: words, bits, the numbers of the interface, complex pairs, the
Code Table's shape, the supported information lengths and the cause codes. -/

namespace Sys2Proof

/-- A 32-bit command, response or bit-payload word (30_encoding.md R60 to R64). -/
abbrev Word := BitVec 32

/-- A finite real of the instance of `NUM` this model takes: the exact value `rat + coef * A`, where
`A = 1/sqrt(2)` (00_scope.md R11). 92_eei_decisions.md D4 allows a model "to take `NUM` = exact
rationals extended with `A`". DESIGN CHOICE, log 1. -/
structure QA where
  rat  : ℚ
  coef : ℚ
deriving DecidableEq, Repr, Inhabited

/-- One word of the format `NUM` (30_encoding.md R65): a finite real, or a word that is not one (a
NaN or an infinity of a floating format), which is outside the domain of every rule
(93_implementation_defined.md U4). -/
inductive NumWord where
  | real (v : QA)
  | nonFinite
deriving DecidableEq, Repr, Inhabited

/-- A complex value, real part first (00_scope.md R11, 30_encoding.md R66). -/
structure Cx (α : Type) where
  re : α
  im : α
deriving DecidableEq, Repr, Inhabited

/-- One word of a payload: 32 packed bits or one `NUM` (30_encoding.md R64, R65). -/
inductive PayloadWord where
  | bits (w : Word)
  | num (x : NumWord)
deriving DecidableEq, Repr, Inhabited

/-- The supported information lengths (00_scope.md R2). -/
inductive InfoLen where
  | n2 | n4 | n6 | n8 | n11
deriving DecidableEq, Repr

/-- The Code Table's shape: 20 rows of 13 bits, column `j` of a row at bit `j` (10_state.md R21). -/
abbrev CodeTable := Vector (BitVec 13) 20

/-- The causes of a failure (60_exceptions.md R131). -/
inductive Cause where
  /-- CONFIG: `ARG` is not in {2, 4, 6, 8, 11}. -/
  | unsupportedN
  /-- ENCODE: `LEN` is not `NCFG`. -/
  | infoLen
  /-- DECODE: `LEN` is not 20. -/
  | llrLen
  /-- MODULATE: `LEN` is not 20. -/
  | cwLen
  /-- DEMODULATE: `LEN` is not 10. -/
  | symLen
  /-- APPLY: `LEN` is 0. -/
  | emptyInput
  /-- The host's SIMULATE only, never the block. -/
  | iterCount
  /-- Any command word of R70. -/
  | illegalCmd
  /-- ENCODE, DECODE or APPLY before configuration (R133). -/
  | notConfigured
deriving DecidableEq, Repr

/-- The two classes of failure (R130, R133). -/
inductive ErrorClass where
  | invalidArgument
  | protocolError
deriving DecidableEq, Repr

end Sys2Proof
end

