-- ==== Sys2Proof/Config.lean ====
section
/-! DEFINITION. What the spec fixes as constants (00_scope.md R8), and what it leaves open: the Code
Table, the results that `NUM` cannot hold, the noise draws, the host's number texts. -/

namespace Sys2Proof.Config

/-- `CW_LEN`: bits in a codeword (00_scope.md R8). -/
def cwLen : Nat := 20

/-- `TABLE_COLS`: columns of the Code Table (R8). -/
def tableCols : Nat := 13

/-- `SYM_LEN`: complex symbols in a codeword (R8). -/
def symLen : Nat := 10

/-- `MAX_L`: the largest `LEN` a command word can express (R9, R61). -/
def maxLen : Nat := 65535

/-- The contents of the Code Table, `CODE_TABLE` (10_state.md R21): OPEN in the spec, so a constant
with no body. Its constraints K1, K2, K3 are named predicates of Safety.lean. Log 3. -/
opaque codeTable : CodeTable

/-- The square root of a real whose root is not in `NUM`: a free value that depends on the operand
alone (93_implementation_defined.md U5). Log 2. -/
opaque sqrtFree : QA → QA

/-- `10^y` for a real `y` whose power is not in `NUM`: a free value that depends on the operand alone
(U5). Log 2. -/
opaque pow10Free : QA → QA

/-- The noise source's answer to draw number `n`: a finite real under no law (10_state.md R30, U3).
Log 4. -/
opaque noiseDraw : Nat → QA

/-- How many decimals beyond six the host writes of a real: the number is not fixed, six is the least
(44_host_composites.md R127). Host only. Log 18. -/
opaque extraDecimals : QA → Nat

/-- Which way the host rounds a magnitude that lies halfway between two decimals: not in any source.
Host only. Log 18. -/
opaque tieRoundsUp : QA → Bool

/-- The magnitude of a number text with an exponent (`2e3`, no sign before it), or none where the host
does not take the notation: not in any source (93_implementation_defined.md U17, N15). Host only.
Log 19. -/
opaque exponentNumber : List Char → Option QA

end Sys2Proof.Config
end

