-- ==== Sys2Proof/Machine/Numerics.lean ====
section
/-! DEFINITION. Arithmetic and comparison on the finite reals of `NUM`: exact wherever the exact
result is in `NUM` (00_scope.md R11, 92_eei_decisions.md D4), a free value where it is not
(93_implementation_defined.md U5). -/

namespace Sys2Proof

def QA.ofRat (q : ℚ) : QA := ⟨q, 0⟩

def QA.zero : QA := ⟨0, 0⟩

/-- `A = 1/sqrt(2)`, the magnitude of one axis of a constellation point (R8, R100). -/
def QA.constA : QA := ⟨0, 1⟩

def QA.neg (x : QA) : QA := ⟨-x.rat, -x.coef⟩

def QA.add (x y : QA) : QA := ⟨x.rat + y.rat, x.coef + y.coef⟩

def QA.sub (x y : QA) : QA := x.add y.neg

/-- The product, by `A * A = 1/2` (R11). -/
def QA.mul (x y : QA) : QA :=
  ⟨x.rat * y.rat + x.coef * y.coef / 2, x.rat * y.coef + x.coef * y.rat⟩

/-- The quotient, by the conjugate. No rule divides by zero: the divisors are `L >= 1`, 2, 10 and a
power of ten (43_awgn_channel.md R113). -/
def QA.div (x y : QA) : QA :=
  let norm := y.rat * y.rat - y.coef * y.coef / 2
  x.mul ⟨y.rat / norm, -y.coef / norm⟩

/-- Whether `rat + coef * A > 0`, decided on the squares since `2 * A * A = 1`. -/
def QA.pos (x : QA) : Bool :=
  if 0 ≤ x.rat then
    if 0 ≤ x.coef then decide (0 < x.rat) || decide (0 < x.coef)
    else decide (x.coef * x.coef < 2 * (x.rat * x.rat))
  else decide (0 < x.coef) && decide (2 * (x.rat * x.rat) < x.coef * x.coef)

/-- The comparison `x > y` of R11. -/
def QA.gt (x y : QA) : Bool := (x.sub y).pos

def QA.nonneg (x : QA) : Bool := !x.neg.pos

def QA.abs (x : QA) : QA := if x.nonneg then x else x.neg

/-- The greatest integer not above `rat + coef * A`: over a common denominator `D` it is the floor of
`(P + Q * A) / D`, and the floor of `Q * A` is an integer square root since `(Q * A)^2 = Q^2 / 2`. -/
def QA.floor (x : QA) : ℤ :=
  let p := x.rat.num * x.coef.den
  let q := x.coef.num * x.rat.den
  let r : ℤ := Nat.sqrt (q.natAbs * q.natAbs / 2)
  (p + if 0 ≤ q then r else -(r + 1)) / ((x.rat.den * x.coef.den : Nat) : ℤ)

/-- The rational square root of a rational, where there is one. -/
def ratRoot? (q : ℚ) : Option ℚ :=
  let r : ℚ := (Nat.sqrt q.num.toNat : ℚ) / (Nat.sqrt q.den : ℚ)
  if r * r = q then some r else none

/-- Every `a + b * A` that can have the square `x`: `a * a + b * b / 2 = x.rat` and
`2 * a * b = x.coef`. -/
def QA.rootCandidates (x : QA) : List QA :=
  if x.coef = 0 then
    (ratRoot? x.rat).toList.map (⟨·, 0⟩) ++ (ratRoot? (2 * x.rat)).toList.map (⟨0, ·⟩)
  else
    (ratRoot? (x.rat * x.rat - x.coef * x.coef / 2)).toList.flatMap fun d =>
      [(x.rat + d) / 2, (x.rat - d) / 2].flatMap fun t =>
        (ratRoot? t).toList.flatMap fun a =>
          [⟨a, x.coef / (2 * a)⟩, ⟨-a, -x.coef / (2 * a)⟩]

/-- The square root where it is in `NUM`. -/
def QA.exactSqrt? (x : QA) : Option QA :=
  x.rootCandidates.find? fun r => r.nonneg && decide (r.mul r = x)

/-- `sqrt` (R113): the root where it is in `NUM`, else a free value, and never negative. Log 2. -/
def QA.sqrt (x : QA) : QA :=
  match x.exactSqrt? with
  | some r => r
  | none   => (Config.sqrtFree x).abs

/-- Ten to an integer power. -/
def tenPow (z : ℤ) : ℚ :=
  if 0 ≤ z then ((10 ^ z.toNat : Nat) : ℚ) else 1 / ((10 ^ (-z).toNat : Nat) : ℚ)

/-- Turns a free value into a free positive value, since `10^y` is strictly positive (R113); every
positive value is reached. -/
def QA.positive (x : QA) : QA := if x = QA.zero then QA.ofRat 1 else x.abs

/-- `10^y` (R113): exact where `y` is an integer, else a free value, and always strictly positive.
Log 2. -/
def QA.pow10 (y : QA) : QA :=
  if y.coef = 0 ∧ y.rat.den = 1 then QA.ofRat (tenPow y.rat.num)
  else (Config.pow10Free y).positive

/-- The finite real a `NUM` word holds, if it holds one (30_encoding.md R65, U4). -/
def NumWord.finite? : NumWord → Option QA
  | .real v    => some v
  | .nonFinite => none

/-- `|s|^2 = re(s)^2 + im(s)^2` (R11). -/
def normSq (s : Cx QA) : QA := (s.re.mul s.re).add (s.im.mul s.im)

end Sys2Proof
end

