-- ==== Sys2Proof/Machine/Operands.lean ====
section
/-! DEFINITION. The operand forms: how a payload's words hold its elements (30_encoding.md R64 to
R66), and how a sequence of `NUM` words gives finite reals. -/

namespace Sys2Proof

/-- `bits2u(v)`: element `j` has weight `2^j` (00_scope.md R10, 20_memory.md R44). -/
def bits2u : List Bool → Nat
  | []      => 0
  | b :: bs => b.toNat + 2 * bits2u bs

/-- `u2bits_N(c)`: bit `j` of `c` is element `j` (R10, 41_ml_decoder.md R94). -/
def u2bits (n c : Nat) : List Bool := (List.range n).map fun j => c.testBit j

/-- `ceil(len / 32)`, the number of words of a bit payload (30_encoding.md R64). -/
def bitWordCount (len : Nat) : Nat := (len + 31) / 32

/-- Packs bits: element `e` at bit `e mod 32` of word `floor(e / 32)`, pad bits 0 (R64). -/
def packBits (bs : List Bool) : List Word :=
  (List.range (bitWordCount bs.length)).map fun k =>
    BitVec.ofNat 32 (bits2u ((bs.drop (32 * k)).take 32))

/-- Unpacks `len` bits; the bits of the last word above element `len - 1` are ignored (R64). -/
def unpackBits (len : Nat) (ws : List Word) : List Bool :=
  (List.range len).map fun e => (ws.getD (e / 32) 0).getLsbD (e % 32)

/-- A complex payload's words, real before imaginary (R66). -/
def flattenCx {α : Type} : List (Cx α) → List α
  | []     => []
  | z :: r => z.re :: z.im :: flattenCx r

/-- Consecutive pairs as complex values: word `2k` is `re`, word `2k + 1` is `im` (R66). -/
def pairUp {α : Type} : List α → List (Cx α)
  | a :: b :: r => ⟨a, b⟩ :: pairUp r
  | _           => []

def PayloadWord.isBits : PayloadWord → Bool
  | .bits _ => true
  | .num _  => false

def PayloadWord.isNum : PayloadWord → Bool
  | .bits _ => false
  | .num _  => true

def PayloadWord.toBits : PayloadWord → Word
  | .bits w => w
  | .num _  => 0

def PayloadWord.toNum : PayloadWord → NumWord
  | .bits _ => .nonFinite
  | .num x  => x

/-- A bit payload of `len` bits, if the words are exactly those of one (R60, R64). -/
def readBits? (len : Nat) (ws : List PayloadWord) : Option (List Bool) :=
  if ws.length = bitWordCount len ∧ ws.all PayloadWord.isBits then
    some (unpackBits len (ws.map PayloadWord.toBits))
  else none

/-- A real payload of `len` reals, if the words are exactly those of one (R60, R65). -/
def readNums? (len : Nat) (ws : List PayloadWord) : Option (List NumWord) :=
  if ws.length = len ∧ ws.all PayloadWord.isNum then some (ws.map PayloadWord.toNum) else none

/-- A complex payload of `len` complex values (R60, R66). -/
def readCxs? (len : Nat) (ws : List PayloadWord) : Option (List (Cx NumWord)) :=
  (readNums? (2 * len) ws).map pairUp

def bitsPayload (bs : List Bool) : List PayloadWord := (packBits bs).map .bits

def numsPayload (xs : List NumWord) : List PayloadWord := xs.map .num

def cxsPayload (zs : List (Cx NumWord)) : List PayloadWord := numsPayload (flattenCx zs)

/-- All the values of a list, if every entry has one. -/
def allSome {α : Type} : List (Option α) → Option (List α)
  | []          => some []
  | none :: _   => none
  | some a :: r => (allSome r).map (a :: ·)

/-- The finite reals of a real payload, if every word holds one (R65, U4). -/
def finiteReals? (xs : List NumWord) : Option (List QA) := allSome (xs.map NumWord.finite?)

def finiteCx? (z : Cx NumWord) : Option (Cx QA) :=
  match z.re.finite?, z.im.finite? with
  | some a, some b => some ⟨a, b⟩
  | _, _           => none

/-- The finite complex values of a complex payload, if every word holds one (R66, U4). -/
def finiteCxs? (zs : List (Cx NumWord)) : Option (List (Cx QA)) := allSome (zs.map finiteCx?)

def realCx (z : Cx QA) : Cx NumWord := ⟨.real z.re, .real z.im⟩

end Sys2Proof
end

