-- ==== Sys2Proof/Syntax.lean ====
section
/-! DEFINITION. The commands of the block, one constructor per row of spec/opcode_table.json, each
with its payload as a sequence of elements, as 30_encoding.md R72 writes it. -/

namespace Sys2Proof

/-- A command with its payload (30_encoding.md R60, R63, R72). `LEN` is the length of the payload. -/
inductive Instr where
  /-- `CONFIG n`: construct the encoder/decoder for information length `n`, the 4-bit `ARG` (R81). -/
  | config (n : BitVec 4)
  /-- `ENCODE [b0, ...]` (R84). -/
  | encode (info : List Bool)
  /-- `DECODE [l0, ...]` (R92). -/
  | decode (llr : List NumWord)
  /-- `MODULATE [c0, ...]` (R101). -/
  | modulate (cw : List Bool)
  /-- `DEMODULATE [(re, im), ...]` (R102). -/
  | demodulate (sym : List (Cx NumWord))
  /-- `SETSNR x`, the signal-to-noise ratio in dB (R111). -/
  | setsnr (x : NumWord)
  /-- `APPLY [(re, im), ...]` (R114); the draws come from the noise port. -/
  | apply (sym : List (Cx NumWord))
deriving DecidableEq, Repr

end Sys2Proof
end

