-- ==== Sys2Proof/WellFormed.lean ====
section
/-! DEFINITION. Which terms of `Instr` a command word can express: `LEN` is a 16-bit field
(30_encoding.md R61), so no payload has more than 65535 elements. Every 4-bit `ARG` of CONFIG is a
well-formed command, legal or not (R81). -/

namespace Sys2Proof

/-- The number of elements of the payload: the `LEN` field (30_encoding.md R60). -/
def Instr.len : Instr → Nat
  | .config _       => 0
  | .encode info    => info.length
  | .decode llr     => llr.length
  | .modulate cw    => cw.length
  | .demodulate sym => sym.length
  | .setsnr _       => 1
  | .apply sym      => sym.length

/-- The payload's length fits the `LEN` field (30_encoding.md R61). -/
abbrev WellFormed (i : Instr) : Prop := i.len ≤ Config.maxLen

end Sys2Proof
end

