-- ==== Sys2Proof/Decode.lean ====
section
/-! DEFINITION. From a command word and its payload words to a command, total, with every refusal
named (30_encoding.md R61, R67 to R70); then the encoder, from the same table. -/

namespace Sys2Proof

/-- `OP`, bits [31:28] (30_encoding.md R61). -/
def opField (w : Word) : BitVec 4 := w.extractLsb' 28 4

/-- `ARG`, bits [27:24] (R61). -/
def argField (w : Word) : BitVec 4 := w.extractLsb' 24 4

/-- `RSV`, bits [23:16] (R61). -/
def rsvField (w : Word) : BitVec 8 := w.extractLsb' 16 8

/-- `LEN`, bits [15:0] (R61). -/
def lenField (w : Word) : BitVec 16 := w.extractLsb' 0 16

/-- The operations of the opcode map (R67). -/
inductive Opcode where
  | config | encode | decode | modulate | demodulate | setsnr | apply
deriving DecidableEq, Repr

/-- The opcode map (R67): 0x0 and 0x8 to 0xF are reserved. -/
def Opcode.ofBits? (b : BitVec 4) : Option Opcode :=
  match b.toNat with
  | 1 => some .config
  | 2 => some .encode
  | 3 => some .decode
  | 4 => some .modulate
  | 5 => some .demodulate
  | 6 => some .setsnr
  | 7 => some .apply
  | _ => none

/-- The opcode number (R67). -/
def Opcode.toBits : Opcode → BitVec 4
  | .config     => 1
  | .encode     => 2
  | .decode     => 3
  | .modulate   => 4
  | .demodulate => 5
  | .setsnr     => 6
  | .apply      => 7

/-- The bits a row of the opcode table fixes (R68). -/
def Opcode.mask : Opcode → Word
  | .config => 0xF0FFFFFF
  | .setsnr => 0xFFFFFFFF
  | .encode | .decode | .modulate | .demodulate | .apply => 0xFFFF0000

/-- The value a row of the opcode table gives them (R68). -/
def Opcode.pattern : Opcode → Word
  | .config     => 0x10000000
  | .encode     => 0x20000000
  | .decode     => 0x30000000
  | .modulate   => 0x40000000
  | .demodulate => 0x50000000
  | .setsnr     => 0x60000001
  | .apply      => 0x70000000

/-- The row of a command. -/
def Instr.opcode : Instr → Opcode
  | .config _     => .config
  | .encode _     => .encode
  | .decode _     => .decode
  | .modulate _   => .modulate
  | .demodulate _ => .demodulate
  | .setsnr _     => .setsnr
  | .apply _      => .apply

/-- Why a command word with its payload is no command. The first five are the illegal words of R70;
the last is a payload that is not the one the word announces (R60; log 8). -/
inductive DecodeError where
  | reservedOpcode | reservedBits | argNotZero | configLen | setsnrLen | payloadShape
deriving DecidableEq, Repr

/-- The row a command word selects, from the word alone (R68, R70, 60_exceptions.md R134). -/
def selectRow (w : Word) : Except DecodeError Opcode :=
  match Opcode.ofBits? (opField w) with
  | none    => .error .reservedOpcode
  | some op =>
    if rsvField w ≠ 0 then .error .reservedBits
    else if op ≠ .config ∧ argField w ≠ 0 then .error .argNotZero
    else if op = .config ∧ lenField w ≠ 0 then .error .configLen
    else if op = .setsnr ∧ lenField w ≠ 1 then .error .setsnrLen
    else .ok op

/-- Reads the payload of a selected row: `LEN` elements of the row's type (R60, R63). -/
def readPayload (op : Opcode) (w : Word) (ws : List PayloadWord) : Option Instr :=
  let len := (lenField w).toNat
  match op with
  | .config     => if ws.isEmpty then some (.config (argField w)) else none
  | .encode     => (readBits? len ws).map .encode
  | .decode     => (readNums? len ws).map .decode
  | .modulate   => (readBits? len ws).map .modulate
  | .demodulate => (readCxs? len ws).map .demodulate
  | .setsnr     => match readNums? len ws with
                   | some [x] => some (.setsnr x)
                   | _        => none
  | .apply      => (readCxs? len ws).map .apply

/-- The decoder: total on any word and any payload words (R69). -/
def decode (w : Word) (ws : List PayloadWord) : Except DecodeError Instr :=
  match selectRow w with
  | .error e => .error e
  | .ok op   =>
    match readPayload op w ws with
    | some i => .ok i
    | none   => .error .payloadShape

/-- The `ARG` field of a command (R61). -/
def Instr.arg : Instr → BitVec 4
  | .config n => n
  | .encode _ | .decode _ | .modulate _ | .demodulate _ | .setsnr _ | .apply _ => 0

/-- The payload words of a command (R63 to R66). -/
def Instr.payload : Instr → List PayloadWord
  | .config _       => []
  | .encode info    => bitsPayload info
  | .decode llr     => numsPayload llr
  | .modulate cw    => bitsPayload cw
  | .demodulate sym => cxsPayload sym
  | .setsnr x       => numsPayload [x]
  | .apply sym      => cxsPayload sym

/-- A command word from its four fields (R61). -/
def packWord (op arg : BitVec 4) (rsv : BitVec 8) (len : BitVec 16) : Word :=
  (op.setWidth 32 <<< 28) ||| (arg.setWidth 32 <<< 24) ||| (rsv.setWidth 32 <<< 16) |||
    len.setWidth 32

/-- The command word of a command: `RSV` is 0 (R61, R68). -/
def Instr.word (i : Instr) : Word := packWord i.opcode.toBits i.arg 0 (BitVec.ofNat 16 i.len)

/-- The encoder: the command word and the payload words of a well-formed command. -/
def encode (i : Instr) : Word × List PayloadWord := (i.word, i.payload)

/-- The payload of zeros that a command word announces: zero bits, or the real 0 (log 6). -/
def zeroPayload (w : Word) : List PayloadWord :=
  let len := (lenField w).toNat
  let zero := PayloadWord.num (.real ⟨0, 0⟩)
  match selectRow w with
  | .error _  => []
  | .ok .config => []
  | .ok .encode | .ok .modulate => List.replicate (bitWordCount len) (.bits 0)
  | .ok .decode | .ok .setsnr => List.replicate len zero
  | .ok .demodulate | .ok .apply => List.replicate (2 * len) zero

/-- The command the decoder reads from a row's word with an operand payload of zeros. -/
def decodeTableWord (nbits w : Nat) : Option Instr :=
  let word := BitVec.ofNat 32 (w % 2 ^ nbits)
  match decode word (zeroPayload word) with
  | .ok i    => some i
  | .error _ => none

end Sys2Proof
end

