-- ==== Sys2Proof/Machine/Flags.lean ====
section
/-! DEFINITION. The block has no flags (10_state.md R29). The only status of an operation is its own
response word, `ERR`, `CAUSE` and `RLEN` (30_encoding.md R62), which is built here. -/

namespace Sys2Proof

/-- The code of a cause (60_exceptions.md R131). -/
def Cause.code : Cause → BitVec 4
  | .unsupportedN  => 1
  | .infoLen       => 2
  | .llrLen        => 3
  | .cwLen         => 4
  | .symLen        => 5
  | .emptyInput    => 6
  | .iterCount     => 7
  | .illegalCmd    => 8
  | .notConfigured => 9

/-- The cause a code names; 0 and 10 to 15 name none (R131). -/
def Cause.ofCode? (c : BitVec 4) : Option Cause :=
  [Cause.unsupportedN, .infoLen, .llrLen, .cwLen, .symLen, .emptyInput, .iterCount, .illegalCmd,
    .notConfigured].find? fun k => k.code == c

/-- The class of a cause (R130, R131, R133). -/
def Cause.errorClass : Cause → ErrorClass
  | .illegalCmd | .notConfigured => .protocolError
  | .unsupportedN | .infoLen | .llrLen | .cwLen | .symLen | .emptyInput | .iterCount =>
    .invalidArgument

/-- `ERR`, bit [31] of a response word (30_encoding.md R62). -/
def errField (w : Word) : Bool := w.getLsbD 31

/-- `CAUSE`, bits [27:24] of a response word (R62). -/
def causeField (w : Word) : BitVec 4 := w.extractLsb' 24 4

/-- `RLEN`, bits [15:0] of a response word (R62). -/
def rlenField (w : Word) : BitVec 16 := w.extractLsb' 0 16

/-- A successful response word: `0x0000_0000 + RLEN` (R62). -/
def okWord (rlen : Nat) : Word := (BitVec.ofNat 16 rlen).setWidth 32

/-- A failed response word: `0x8000_0000 + (CAUSE << 24)` (R62). -/
def errWord (c : Cause) : Word := 0x80000000#32 ||| (c.code.setWidth 32 <<< 24)

end Sys2Proof
end

