-- ==== Sys2Proof/Machine/State.lean ====
section
/-! DEFINITION. The machine's state as plain data, its stops, and the state after reset. -/

namespace Sys2Proof.Machine

/-- A command as the host sends it: the command word and the payload's words (30_encoding.md R60). -/
structure Command where
  word    : Word
  payload : List PayloadWord
deriving DecidableEq, Repr

/-- A response: the response word and the result payload's words (R60, R62). -/
structure Response where
  word    : Word
  payload : List PayloadWord
deriving DecidableEq, Repr

/-- What the host can do between two operations (70_reset_and_hazards.md R151, R161). -/
inductive HostMove where
  | command (c : Command)
  | reset
deriving DecidableEq, Repr

/-- Why the machine stops with a fault. -/
inductive Fault where
  /-- Raised by `step` when the payload beside a legal command word is not the one the word announces
  (wrong number of words, or words of another element type): the spec says such a payload cannot be
  expressed (30_encoding.md R60, 20_memory.md R46). Safe: the model stops. Log 8. -/
  | payloadMismatch
deriving DecidableEq, Repr

/-- Why the model gives a command no meaning. -/
inductive Refusal where
  /-- Raised by an arm of `exec` whose command has no meaning yet. Safe. No arm is left. -/
  | notModelled (mnemonic : String)
  /-- Raised by DECODE, DEMODULATE, SETSNR and APPLY on an operand that is not a finite real, which
  the spec has a model refuse (93_implementation_defined.md U4). Safe. Log 5. -/
  | nonFiniteOperand
  /-- Raised by APPLY when the connected noise source answers a value that is not a finite real
  (U4). Safe. Log 5. -/
  | nonFiniteDraw
deriving DecidableEq, Repr

/-- The state. `table`, `ncfg` and `snr` are the block's own (10_state.md R20); the rest is the
environment of the block: the host's moves to come, the noise port, the responses given. -/
structure State where
  /-- `T`, the Code Table: read only (R21). -/
  table     : CodeTable
  /-- `NCFG`, register 0: the 4-bit field `N`, 0 for `NONE` (R26). -/
  ncfg      : BitVec 4
  /-- `SNR`, register 1: `none` for `VALID = 0`, else the real `DB` in decibels (R27, U10). -/
  snr       : Option QA
  /-- The host's moves to come, the next one first (R29, 20_memory.md R48). Log 6. -/
  host      : List HostMove
  /-- What the connected noise source will answer next (R30). Log 4. -/
  noise     : List NumWord
  /-- How many draws have been taken (43_awgn_channel.md R114). Log 4. -/
  drawn     : Nat
  /-- The responses given, oldest first (70_reset_and_hazards.md R160). Log 10. -/
  responses : List Response
deriving DecidableEq, Repr

/-- The state after reset (10_state.md R33), with no host move to come, no noise source connected and
nothing answered yet (log 4, 6, 10). -/
def State.reset : State where
  table     := Config.codeTable
  ncfg      := 0
  snr       := none
  host      := []
  noise     := []
  drawn     := 0
  responses := []

end Sys2Proof.Machine
end

