-- ==== Sys2Proof/Machine/Ops.lean ====
section
/-! DEFINITION. The shared operations: the Code Table's one read, the registers, the draw port, and
the two ways an operation ends, `respond` and `raise`. -/

namespace Sys2Proof

/-- An information length as a number (00_scope.md R2). -/
def InfoLen.toNat : InfoLen → Nat
  | .n2  => 2
  | .n4  => 4
  | .n6  => 6
  | .n8  => 8
  | .n11 => 11

/-- The information length a 4-bit value names, if it is a supported one (10_state.md R26,
40_block_encoder.md R81). -/
def InfoLen.ofBits? (n : BitVec 4) : Option InfoLen :=
  match n.toNat with
  | 2  => some .n2
  | 4  => some .n4
  | 6  => some .n6
  | 8  => some .n8
  | 11 => some .n11
  | _  => none

/-- `TblRead(i, j)` = `T[i][j]`, the one read of the one address space (20_memory.md R40, R41). -/
def tblRead (t : CodeTable) (i : Fin 20) (j : Fin 13) : Bool := t[i].getLsbD j

/-- Row `i` of the generator matrix `G_N`: the leading `N` columns of the table (10_state.md R25). -/
def generatorRow (t : CodeTable) (n : InfoLen) (i : Fin 20) : List Bool :=
  ((List.finRange 13).take n.toNat).map (tblRead t i)

/-- `XOR` over a sequence; 0 when it is empty (00_scope.md R10). -/
def xorAll (bs : List Bool) : Bool := bs.foldr xor false

/-- `cw[i]`: XOR over `j` of `info[j] AND G_N[i][j]` (40_block_encoder.md R84). -/
def codewordBit (t : CodeTable) (n : InfoLen) (info : List Bool) (i : Fin 20) : Bool :=
  xorAll (List.zipWith and info (generatorRow t n i))

/-- `enc_N(info)`: the 20 bits of the codeword (R84). -/
def encodeVector (t : CodeTable) (n : InfoLen) (info : List Bool) : List Bool :=
  (List.finRange 20).map (codewordBit t n info)

namespace Machine

/-- Gives a response: appended, so responses come in the order of the commands (20_memory.md R48). -/
def State.addResponse (s : State) (r : Response) : State :=
  { s with responses := s.responses ++ [r] }

/-- Writes `NCFG` (10_state.md R26). -/
def State.setNcfg (s : State) (n : BitVec 4) : State := { s with ncfg := n }

/-- Writes `SNR`: `VALID <- 1`, `DB <- x` (10_state.md R27). -/
def State.setSnr (s : State) (x : QA) : State := { s with snr := some x }

/-- `NCFG` as an information length; `none` for `NONE`. A pattern the register can never hold (R26)
reads as `NONE` too (log 9). -/
def State.infoLen? (s : State) : Option InfoLen := InfoLen.ofBits? s.ncfg

/-- `respond OK(v)`: `ERR = 0`, `CAUSE = 0`, `RLEN` elements in the payload (00_scope.md R12). -/
def respond (rlen : Nat) (payload : List PayloadWord) (s : State) : State :=
  s.addResponse ⟨okWord rlen, payload⟩

/-- `raise InvalidArgument(cause)` and `raise ProtocolError(cause)`: `ERR = 1`, the cause, an empty
result; no register is written, no draw is taken, nothing is sticky (60_exceptions.md R136, R137).
There is no handler to enter and nothing to return from. -/
def raise (c : Cause) (s : State) : State := s.addResponse ⟨errWord c, []⟩

/-- The answer to the `i`-th draw from now: the connected source's value, else a free value
(10_state.md R30, log 4); `none` if it is not a finite real (U4). -/
def State.draw? (s : State) (i : Nat) : Option QA :=
  match s.noise[i]? with
  | some x => x.finite?
  | none   => some (Config.noiseDraw (s.drawn + i))

/-- The answers to the next `k` draws, in order (43_awgn_channel.md R114). -/
def State.draws? (s : State) (k : Nat) : Option (List QA) :=
  allSome ((List.range k).map s.draw?)

/-- The noise source after `k` draws: its own advance, not the block's (R114). -/
def State.advanceNoise (s : State) (k : Nat) : State :=
  { s with noise := s.noise.drop k, drawn := s.drawn + k }

/-- The host's next move has been taken. -/
def State.setHost (s : State) (rest : List HostMove) : State := { s with host := rest }

/-- The reset event (70_reset_and_hazards.md R150): both registers to `NONE`, no other effect; the
table is the same before and after (10_state.md R20). Log 11. -/
def State.resetBlock (s : State) : State := { s with ncfg := 0, snr := none }

end Machine
end Sys2Proof
end

