-- ==== Sys2Proof/Machine/AwgnChannel.lean ====
section
/-! DEFINITION. The AWGN noise generator, SETSNR and APPLY (43_awgn_channel.md). -/

namespace Sys2Proof

/-- `P`: the mean of `|s|^2`, summed in increasing `k` from 0 (R113). -/
def signalPower (zs : List (Cx QA)) : QA :=
  (zs.foldl (fun acc z => acc.add (normSq z)) QA.zero).div (QA.ofRat zs.length)

/-- `PN = P / 10^(x / 10)` (R113). -/
def noisePower (p x : QA) : QA := p.div (x.div (QA.ofRat 10)).pow10

/-- `sigma = sqrt(PN / 2)`, the deviation of one axis (R113). -/
def noiseDeviation (x : QA) (zs : List (Cx QA)) : QA :=
  ((noisePower (signalPower zs) x).div (QA.ofRat 2)).sqrt

/-- One noisy symbol: `(re + sigma * g_re, im + sigma * g_im)` (R114). -/
def addNoise (sigma : QA) (z g : Cx QA) : Cx QA :=
  ⟨z.re.add (sigma.mul g.re), z.im.add (sigma.mul g.im)⟩

/-- The noisy copy: symbol `k` takes draw `2k` for its real and draw `2k + 1` for its imaginary part
(R114). -/
def noisyCopy (x : QA) (zs : List (Cx QA)) (draws : List QA) : List (Cx QA) :=
  List.zipWith (addNoise (noiseDeviation x zs)) zs (pairUp draws)

namespace Machine

/-- SETSNR (R111): stores any finite real. -/
def execSetsnr (x : NumWord) (s : State) : Host.Outcome State Fault Refusal :=
  match x.finite? with
  | none   => .refused .nonFiniteOperand
  | some v => .next (respond 0 [] (s.setSnr v))

/-- APPLY (R112, R114): the noisy copy of a non-empty sequence, with `2 * LEN` draws, once `SNR` is
set (60_exceptions.md R133). -/
def execApply (sym : List (Cx NumWord)) (s : State) : Host.Outcome State Fault Refusal :=
  match s.snr with
  | none   => .next (raise .notConfigured s)
  | some x =>
    if sym.isEmpty then .next (raise .emptyInput s)
    else
      match finiteCxs? sym, s.draws? (2 * sym.length) with
      | none, _             => .refused .nonFiniteOperand
      | some _, none        => .refused .nonFiniteDraw
      | some zs, some draws =>
        .next (respond sym.length (cxsPayload ((noisyCopy x zs draws).map realCx))
          (s.advanceNoise (2 * sym.length)))

end Machine
end Sys2Proof
end

