-- ==== Sys2Proof/Machine/BlockEncoder.lean ====
section
/-! DEFINITION. The block encoder's commands, CONFIG and ENCODE (40_block_encoder.md). -/

namespace Sys2Proof.Machine

/-- CONFIG (R81): a supported `n` becomes `NCFG`; any other is UNSUPPORTED_N and leaves `NCFG` as it
was (R82). -/
def execConfig (n : BitVec 4) (s : State) : Host.Outcome State Fault Refusal :=
  match InfoLen.ofBits? n with
  | none   => .next (raise .unsupportedN s)
  | some _ => .next (respond 0 [] (s.setNcfg n))

/-- ENCODE (R83, R84): the codeword of `info`, once `NCFG` is set (60_exceptions.md R133) and `info`
has `NCFG` bits. -/
def execEncode (info : List Bool) (s : State) : Host.Outcome State Fault Refusal :=
  match s.infoLen? with
  | none   => .next (raise .notConfigured s)
  | some n =>
    if info.length ≠ n.toNat then .next (raise .infoLen s)
    else .next (respond Config.cwLen (bitsPayload (encodeVector s.table n info)) s)

end Sys2Proof.Machine
end

