-- ==== Sys2Proof/Machine/MlDecoder.lean ====
section
/-! DEFINITION. The exhaustive maximum-likelihood decoder, DECODE (41_ml_decoder.md). -/

namespace Sys2Proof

/-- `M` of a codeword: the sum of `llr[i]` for every `i` where the codeword bit is 1, in increasing
`i` from 0 (R91). -/
def correlate (cw : List Bool) (llr : List QA) : QA :=
  (cw.zip llr).foldl (fun acc p => if p.1 then acc.add p.2 else acc) QA.zero

/-- `M(c)`, the metric of candidate number `c` (R91, R94). -/
def metric (t : CodeTable) (n : InfoLen) (llr : List QA) (c : Nat) : QA :=
  correlate (encodeVector t n (u2bits n.toNat c)) llr

/-- One turn of the search: `best` and `bestm` change on a strictly greater metric only (R92). -/
def scanCandidate (t : CodeTable) (n : InfoLen) (llr : List QA) (acc : Nat × QA) (c : Nat) : Nat × QA :=
  let m := metric t n llr c
  if m.gt acc.2 then (c, m) else acc

/-- The search of R92: candidate 0 unconditionally, then 1 to `2^N - 1` in increasing order. -/
def bestCandidate (t : CodeTable) (n : InfoLen) (llr : List QA) : Nat :=
  ((List.range' 1 (2 ^ n.toNat - 1)).foldl (scanCandidate t n llr) (0, metric t n llr 0)).1

namespace Machine

/-- DECODE (R90, R92): the first candidate with the greatest metric, once `NCFG` is set
(60_exceptions.md R133) and there are 20 reals. -/
def execDecode (llr : List NumWord) (s : State) : Host.Outcome State Fault Refusal :=
  match s.infoLen? with
  | none   => .next (raise .notConfigured s)
  | some n =>
    if llr.length ≠ Config.cwLen then .next (raise .llrLen s)
    else
      match finiteReals? llr with
      | none    => .refused .nonFiniteOperand
      | some ls => .next (respond n.toNat (bitsPayload (u2bits n.toNat (bestCandidate s.table n ls))) s)

end Machine
end Sys2Proof
end

