-- ==== Sys2Proof/Machine/QpskMapper.lean ====
section
/-! DEFINITION. The QPSK mapper and demapper, MODULATE and DEMODULATE (42_qpsk_mapper.md). -/

namespace Sys2Proof

/-- One axis of a constellation point: `+A` for 1, `-A` for 0 (R100). -/
def axis (b : Bool) : QA := if b then QA.constA else QA.constA.neg

/-- The symbols of a bit sequence, one per consecutive pair (R101). -/
def mapSymbols (cw : List Bool) : List (Cx QA) :=
  (pairUp cw).map fun p => ⟨axis p.re, axis p.im⟩

namespace Machine

/-- MODULATE (R101): 20 bits to 10 symbols; reads no register and no table. -/
def execModulate (cw : List Bool) (s : State) : Host.Outcome State Fault Refusal :=
  if cw.length ≠ Config.cwLen then .next (raise .cwLen s)
  else .next (respond Config.symLen (cxsPayload ((mapSymbols cw).map realCx)) s)

/-- DEMODULATE (R102): 10 symbols to 20 reals, each part copied out unscaled. -/
def execDemodulate (sym : List (Cx NumWord)) (s : State) : Host.Outcome State Fault Refusal :=
  if sym.length ≠ Config.symLen then .next (raise .symLen s)
  else
    match finiteCxs? sym with
    | none    => .refused .nonFiniteOperand
    | some zs => .next (respond Config.cwLen (numsPayload ((flattenCx zs).map .real)) s)

end Machine
end Sys2Proof
end

