-- ==== Sys2Proof/Machine/Dispatch.lean ====
section
/-! DEFINITION. One arm per command. -/

namespace Sys2Proof.Machine

/-- What a command does to the state. -/
def exec (i : Instr) (s : State) : Host.Outcome State Fault Refusal :=
  match i with
  | .config n => Sys2Proof.Machine.execConfig n s
  | .encode info => Sys2Proof.Machine.execEncode info s
  | .decode llr => Sys2Proof.Machine.execDecode llr s
  | .modulate cw => Sys2Proof.Machine.execModulate cw s
  | .demodulate sym => Sys2Proof.Machine.execDemodulate sym s
  | .setsnr x => Sys2Proof.Machine.execSetsnr x s
  | .apply sym => Sys2Proof.Machine.execApply sym s

end Sys2Proof.Machine
end

