-- ==== Sys2Proof/Machine/Transaction.lean ====
section
/-! DEFINITION. One transaction of the block: a command word with its payload (30_encoding.md R60,
R69). -/

namespace Sys2Proof.Machine

/-- Runs one command: a legal word with its payload runs (R69); an illegal word is answered
ILLEGAL_CMD from the word alone, before every other check (R70, 60_exceptions.md R134); a payload
that is not the one the word announces stops the model (log 8). -/
def runCommand (c : Command) (s : State) : Host.Outcome State Fault Refusal :=
  match decode c.word c.payload with
  | .ok i => exec i s
  | .error .payloadShape => .fault .payloadMismatch
  | .error .reservedOpcode | .error .reservedBits | .error .argNotZero | .error .configLen
  | .error .setsnrLen => .next (raise .illegalCmd s)

/-- The command word `w` (its low `nbits` bits) with a payload of zeros, as a host move (log 6). -/
def zeroCommand (nbits w : Nat) : HostMove :=
  let word := BitVec.ofNat 32 (w % 2 ^ nbits)
  .command ⟨word, zeroPayload word⟩

end Sys2Proof.Machine
end

