-- ==== Sys2Proof/Machine/Step.lean ====
section
/-! DEFINITION. One step: the host's next move, taken whole (00_scope.md R13, 20_memory.md R48). -/

namespace Sys2Proof.Machine

/-- One step: nothing where the host has no move (log 7); reset (70_reset_and_hazards.md R151); or
one command. -/
def step (s : State) : Host.Outcome State Fault Refusal :=
  match s.host with
  | [] => .next s
  | .reset :: rest => .next (s.setHost rest).resetBlock
  | .command c :: rest => runCommand c (s.setHost rest)

/-- The state whose next host move is the command word `w` with a payload of zeros (log 6). -/
def State.withFetchWord (s : State) (nbits w : Nat) : State :=
  s.setHost (zeroCommand nbits w :: s.host)

end Sys2Proof.Machine
end

