-- ==== Sys2Proof/Machine/SymbolText.lean ====
section
/-! DEFINITION. The text of a complex value, written and read (44_host_composites.md R127, R128): a
matter of the host, outside the hardware (00_scope.md R5). Log 13, 18, 19. -/

namespace Sys2Proof.HostProc

/-- The character of a decimal digit. -/
def digitChar (k : Nat) : Char := Char.ofNat ('0'.toNat + k)

/-- The decimal digits of a whole number, with no leading zero; `fuel >= n` is enough. -/
def wholeDigits : Nat → Nat → List Char
  | 0, n        => [digitChar (n % 10)]
  | fuel + 1, n =>
    if n < 10 then [digitChar n] else wholeDigits fuel (n / 10) ++ [digitChar (n % 10)]

/-- The last `d` decimal digits of a whole number. -/
def lastDigits : Nat → Nat → List Char
  | 0, _     => []
  | d + 1, n => lastDigits d (n / 10) ++ [digitChar (n % 10)]

/-- The nearest integer; halfway between two of them the host's own choice. Log 18. -/
def nearest (x : QA) : ℤ :=
  let y := x.add (QA.ofRat (1 / 2))
  if y = QA.ofRat y.floor ∧ Config.tieRoundsUp x = false then y.floor - 1 else y.floor

/-- The magnitude `x` as decimal floating text with `d` decimals (R127). -/
def magnitudeText (d : Nat) (x : QA) : List Char :=
  let n := (nearest (x.mul (QA.ofRat (10 ^ d : Nat)))).toNat
  wholeDigits (n / 10 ^ d) (n / 10 ^ d) ++ '.' :: lastDigits d n

/-- The text of a real: its own `-` when it is negative, then the magnitude (R127). -/
def realText (d : Nat) (x : QA) : List Char :=
  if x.nonneg then magnitudeText d x else '-' :: magnitudeText d x.neg

/-- The text of a complex value with `d x` decimals for a part `x` (R127). -/
def fmtWith (d : QA → Nat) (z : Cx QA) : List Char :=
  realText (d z.re) z.re ++ (if z.im.nonneg then ['+'] else []) ++ realText (d z.im) z.im ++ ['j']

/-- How many decimals the host writes of a real: six or more (R127). Log 18. -/
def decimals (x : QA) : Nat := 6 + Config.extraDecimals x

/-- `fmt(s)` (R127). -/
def fmt (z : Cx QA) : List Char := fmtWith decimals z

def digitsValue (ds : List Char) : Nat := ds.foldl (fun acc c => 10 * acc + (c.toNat - '0'.toNat)) 0

/-- The number written by digits with at most one point; none if it is not one (R128, log 13). -/
def unsignedNumber? (t : List Char) : Option ℚ :=
  let whole := t.takeWhile Char.isDigit
  match t.dropWhile Char.isDigit with
  | [] => if whole.isEmpty then none else some (digitsValue whole)
  | '.' :: frac =>
    if frac.all Char.isDigit && !(whole.isEmpty && frac.isEmpty) then
      some (digitsValue whole + (digitsValue frac : ℚ) / (10 ^ frac.length : Nat))
    else none
  | _ => none

def isSign (c : Char) : Bool := c == '+' || c == '-'

def isExponentMark (c : Char) : Bool := c == 'e' || c == 'E'

/-- Digits, after at most one sign. -/
def isWholeText (t : List Char) : Bool :=
  match t with
  | []     => false
  | c :: r => let ds := if isSign c then r else c :: r
              !ds.isEmpty && ds.all Char.isDigit

/-- Whether a text is a number, an exponent letter and a whole number. Log 19. -/
def isExponentText (t : List Char) : Bool :=
  match t.dropWhile fun c => !isExponentMark c with
  | []     => false
  | _ :: r => (unsignedNumber? (t.takeWhile fun c => !isExponentMark c)).isSome && isWholeText r

/-- The magnitude written by a text without a sign; none if it is not a number (R128). Only whether a
well-formed exponent text is a number, and which magnitude, is left to the host. Log 19. -/
def magnitude? (t : List Char) : Option QA :=
  if isExponentText t then (Config.exponentNumber t).map QA.abs else (unsignedNumber? t).map QA.ofRat

/-- The number written by a text with an optional sign, which is the number's own (R128). -/
def number? (t : List Char) : Option QA :=
  match t with
  | '-' :: r => (magnitude? r).map QA.neg
  | '+' :: r => magnitude? r
  | r        => magnitude? r

/-- `parse(t)` (R128): the text must end in `j`; the first sign after position 0 separates the real
from the imaginary text, and belongs to the latter. -/
def parse (t : List Char) : Option (Cx QA) :=
  match t.getLast? with
  | some 'j' =>
    match t.dropLast with
    | []     => none
    | c :: r =>
      let reText := c :: r.takeWhile fun d => !isSign d
      match r.dropWhile fun d => !isSign d with
      | []     => none
      | imText =>
        match number? reText, number? imText with
        | some re, some im => some ⟨re, im⟩
        | _, _             => none
  | _ => none

end Sys2Proof.HostProc
end

