-- ==== Sys2Proof/Machine/HostProcedures.lean ====
section
/-! DEFINITION. What the spec transcribes of the software around the block (44_host_composites.md):
the pseudo-operations CODING, DECODING and SIMULATE as sequences of commands run by the step, and the
adapter's three modes over them. None of it is in the hardware (00_scope.md R5, R120); no arm of `exec`
uses it. Log 13.

`coding`, `decoding` and `simulate` take the information length as the 4-bit `ARG` a CONFIG can carry;
the modes `codingText`, `decodingText` and `channelSimulation` take any integer (log 16). -/

namespace Sys2Proof.HostProc

open Sys2Proof.Machine

/-- How a pseudo-operation ends without a result (R120). -/
inductive Stop where
  /-- The block answered `ERR = 1` with this cause; nothing further was issued. -/
  | failed (c : Cause) (s : State)
  /-- The host itself refuses before any command (R126; an `N` that `ARG` cannot hold, log 16). -/
  | refusedByHost (c : Cause)
  /-- The host itself refuses a command whose payload `LEN` cannot count; this is the cause of the
  operation's own length check (log 17). -/
  | tooLong (c : Cause) (s : State)
  /-- A malformed symbol string (R128). -/
  | malformedText
  /-- The model has no meaning for the command. -/
  | noMeaning (s : State)
deriving DecidableEq, Repr

/-- The cause a stop reports. A malformed string has no code of its own (60_exceptions.md R131). -/
def Stop.cause? : Stop → Option Cause
  | .failed c _ | .refusedByHost c | .tooLong c _ => some c
  | .malformedText | .noMeaning _ => none

/-- The class of the failure; a malformed string is of the InvalidArgument class (R128). -/
def Stop.errorClass? : Stop → Option ErrorClass
  | .failed c _ | .refusedByHost c | .tooLong c _ => some c.errorClass
  | .malformedText => some .invalidArgument
  | .noMeaning _   => none

/-- The cause of an operation's check of its `LEN` from above (60_exceptions.md R131). -/
def lengthCause? : Instr → Option Cause
  | .encode _     => some .infoLen
  | .decode _     => some .llrLen
  | .modulate _   => some .cwLen
  | .demodulate _ => some .symLen
  | .config _ | .setsnr _ | .apply _ => none

/-- Takes the outcome of one step as the host sees it: a failure ends the sequence (R120). `s` is the
state before it. -/
def takeResponse (s : State) : Host.Outcome State Fault Refusal → Except Stop (Response × State)
  | .fault _ | .refused _ => .error (.noMeaning s)
  | .next s' =>
    match s'.responses.getLast? with
    | none => .error (.noMeaning s)
    | some r =>
      if errField r.word then
        match Cause.ofCode? (causeField r.word) with
        | some c => .error (.failed c s')
        | none   => .error (.noMeaning s)
      else .ok (r, s')

/-- Issues one command and takes its response (R120). A payload that no command word can count is not
issued: the host reports the failure the operation's length check would (log 17). -/
def transact (i : Instr) (s : State) : Except Stop (Response × State) :=
  if Config.maxLen < i.len then
    match lengthCause? i with
    | some c => .error (.tooLong c s)
    | none   => .error (.noMeaning s)
  else takeResponse s (step (s.setHost (.command ⟨(encode i).1, (encode i).2⟩ :: s.host)))

def resultBits (r : Response) : List Bool :=
  unpackBits (rlenField r.word).toNat (r.payload.map PayloadWord.toBits)

def resultNums (r : Response) : List NumWord := r.payload.map PayloadWord.toNum

def resultCxs (r : Response) : List (Cx NumWord) := pairUp (resultNums r)

/-- CODING (R121): the ten symbols, before they are written as text. -/
def coding (n : BitVec 4) (bits : List Bool) (s : State) : Except Stop (List (Cx NumWord) × State) := do
  let (_, s) ← transact (.config n) s
  let (cw, s) ← transact (.encode bits) s
  let (sym, s) ← transact (.modulate (resultBits cw)) s
  return (resultCxs sym, s)

/-- DECODING (R122) from symbols already read. -/
def decoding (n : BitVec 4) (sym : List (Cx NumWord)) (s : State) : Except Stop (List Bool × State) := do
  let (_, s) ← transact (.config n) s
  let (llr, s) ← transact (.demodulate sym) s
  let (info, s) ← transact (.decode (resultNums llr)) s
  return (resultBits info, s)

/-- One trial of SIMULATE (R123): whether `v` comes back unchanged. -/
def trial (v : List Bool) (s : State) : Except Stop (Bool × State) := do
  let (cw, s) ← transact (.encode v) s
  let (sym, s) ← transact (.modulate (resultBits cw)) s
  let (rx, s) ← transact (.apply (resultCxs sym)) s
  let (llr, s) ← transact (.demodulate (resultCxs rx)) s
  let (v2, s) ← transact (.decode (resultNums llr)) s
  return (resultBits v2 == v, s)

/-- The Simulation Accumulator (10_state.md R32). -/
structure Tally where
  success : Nat
  failure : Nat
deriving DecidableEq, Repr

/-- The trials of SIMULATE, one after another (R123). -/
def trials : List (List Bool) → Tally → State → Except Stop (Tally × State)
  | [], t, s => .ok (t, s)
  | v :: vs, t, s =>
    match trial v s with
    | .error e => .error e
    | .ok (true, s')  => trials vs { t with success := t.success + 1 } s'
    | .ok (false, s') => trials vs { t with failure := t.failure + 1 } s'

/-- SIMULATE (R123, R126). The information bits are the host's own draws, free inputs (R124): bit `j`
of trial `k` is `draw k j`. -/
def simulate (n : BitVec 4) (iterations : Int) (snr : NumWord) (draw : Nat → Nat → Bool) (s : State) :
    Except Stop (Tally × State) :=
  if iterations ≤ 0 then .error (.refusedByHost .iterCount)
  else do
    let (_, s) ← transact (.config n) s
    let (_, s) ← transact (.setsnr snr) s
    let vector := fun k => (List.range n.toNat).map (draw k)
    trials ((List.range iterations.toNat).map vector) ⟨0, 0⟩ s

/-- `BLER = failure / (success + failure)` (R125). -/
def bler (t : Tally) : ℚ := t.failure / (t.success + t.failure : Nat)

/-- The `ARG` of CONFIG for the host's information length; an `N` that four bits cannot hold is
unsupported, and the host itself says so (log 16). -/
def withArg {α : Type} (n : Int) (run : BitVec 4 → Except Stop α) : Except Stop α :=
  if 0 ≤ n ∧ n < 16 then run (BitVec.ofInt 4 n) else .error (.refusedByHost .unsupportedN)

/-- The Coding mode (R121): CODING with its texts. -/
def codingText (n : Int) (bits : List Bool) (s : State) : Except Stop (List (List Char) × State) :=
  withArg n fun arg => do
    let (sym, s) ← coding arg bits s
    match finiteCxs? sym with
    | some zs => return (zs.map fmt, s)
    | none    => .error (.noMeaning s)

/-- The Decoding mode (R122): every string is read before the first command. -/
def decodingText (n : Int) (texts : List (List Char)) (s : State) : Except Stop (List Bool × State) :=
  match allSome (texts.map parse) with
  | none     => .error .malformedText
  | some sym => withArg n fun arg => decoding arg (sym.map realCx) s

/-- What the Channel simulation mode returns (R125). -/
structure Report where
  success : Nat
  failure : Nat
  bler    : ℚ
deriving DecidableEq, Repr

/-- The adapter's default SNR, 10 dB (R129). -/
def defaultSnr : NumWord := .real (QA.ofRat 10)

/-- The Channel simulation mode (R123, R125): the counts and the BLER of SIMULATE; an SNR that is not
specified is 10 dB (R129). The iteration count is checked first (R123). -/
def channelSimulation (n : Int) (iterations : Int) (snr : Option NumWord) (draw : Nat → Nat → Bool)
    (s : State) : Except Stop (Report × State) :=
  if iterations ≤ 0 then .error (.refusedByHost .iterCount)
  else withArg n fun arg => do
    let (t, s) ← simulate arg iterations (snr.getD defaultSnr) draw s
    return (⟨t.success, t.failure, bler t⟩, s)

end Sys2Proof.HostProc
end

