-- ==== Sys2Proof/Safety.lean ====
section
/-! DEFINITION. The terms claims use: what a `NUM` value means as a real, the constraints on the Code
Table, the illegal words, and the invariant of the machine. -/

namespace Sys2Proof

/-- The real a finite value of `NUM` is (00_scope.md R11, R65). -/
noncomputable def QA.toReal (x : QA) : ℝ := x.rat + x.coef * (1 / Real.sqrt 2)

/-- Constraint K1: `T[0][0] = 1` (10_state.md R22). -/
def CodeTable.K1 (t : CodeTable) : Prop := tblRead t 0 0 = true

/-- Constraint K2: `T[1][0] = 1` (10_state.md R23). -/
def CodeTable.K2 (t : CodeTable) : Prop := tblRead t 1 0 = true

/-- Constraint K3 at one length: ENCODE is injective on the vectors of that length (10_state.md
R24). -/
def CodeTable.K3At (t : CodeTable) (n : InfoLen) : Prop :=
  ∀ u v : List Bool, u.length = n.toNat → v.length = n.toNat →
    encodeVector t n u = encodeVector t n v → u = v

/-- Constraint K3 (10_state.md R24). -/
def CodeTable.K3 (t : CodeTable) : Prop := ∀ n, t.K3At n

/-- Column `j` of the Code Table, the codeword of the unit vector `j` (40_block_encoder.md R85). -/
def CodeTable.column (t : CodeTable) (j : Fin 13) : List Bool :=
  (List.finRange 20).map fun i => tblRead t i j

/-- `COL[j]`, column `j` as a 20-bit integer (40_block_encoder.md R86). -/
def CodeTable.colNum (t : CodeTable) (j : Fin 13) : Nat :=
  ∑ i : Fin 20, if tblRead t i j then 2 ^ i.val else 0

/-- `ROW[i]`, row `i` as a 13-bit integer (R86). -/
def CodeTable.rowNum (t : CodeTable) (i : Fin 20) : Nat :=
  ∑ j : Fin 13, if tblRead t i j then 2 ^ j.val else 0

/-- The metric of candidate `c` as a real: the sum of `llr[i]` for every `i` where the codeword of `c`
has a 1 (41_ml_decoder.md R91). -/
noncomputable def realMetric (t : CodeTable) (n : InfoLen) (ls : List QA) (c : Nat) : ℝ :=
  ∑ i : Fin 20, if codewordBit t n (u2bits n.toNat c) i then (ls.getD i QA.zero).toReal else 0

/-- The average power of a sequence as a real (43_awgn_channel.md R113). -/
noncomputable def realPower (zs : List (Cx QA)) : ℝ :=
  (zs.map fun z => z.re.toReal ^ 2 + z.im.toReal ^ 2).sum / zs.length

/-- The payload words are exactly those of `len` elements of a row's element type (30_encoding.md
R60, R63 to R66). -/
def PayloadFits (op : Opcode) (len : Nat) (ws : List PayloadWord) : Prop :=
  match op with
  | .config => ws = []
  | .encode | .modulate => ∃ l : List Word, ws = l.map .bits ∧ l.length = (len + 31) / 32
  | .decode | .setsnr => ∃ l : List NumWord, ws = l.map .num ∧ l.length = len
  | .demodulate | .apply => ∃ l : List NumWord, ws = l.map .num ∧ l.length = 2 * len

/-- An illegal command word, by the five conditions of 30_encoding.md R70. -/
def IllegalWord (w : Word) : Prop :=
  (w.extractLsb' 28 4 = 0 ∨ 8 ≤ (w.extractLsb' 28 4).toNat) ∨
  w.extractLsb' 16 8 ≠ 0 ∨
  (w.extractLsb' 24 4 ≠ 0 ∧ w.extractLsb' 28 4 ≠ 1) ∨
  (w.extractLsb' 28 4 = 1 ∧ w.extractLsb' 0 16 ≠ 0) ∨
  (w.extractLsb' 28 4 = 6 ∧ w.extractLsb' 0 16 ≠ 1)

namespace Machine

/-- The values `NCFG` can hold: `NONE` (0) or a supported length (10_state.md R26, R34). -/
def NcfgLegal (n : BitVec 4) : Prop := n = 0 ∨ n = 2 ∨ n = 4 ∨ n = 6 ∨ n = 8 ∨ n = 11

/-- The operation needs a register that is `NONE` (60_exceptions.md R133). -/
def Unconfigured (i : Instr) (s : State) : Prop :=
  match i with
  | .encode _ | .decode _ => s.ncfg = 0
  | .apply _ => s.snr = none
  | .config _ | .modulate _ | .demodulate _ | .setsnr _ => False

/-- The operation's own check fails, with this cause code (60_exceptions.md R131). -/
def OwnCheckFails (i : Instr) (s : State) (code : BitVec 4) : Prop :=
  match i with
  | .config n       => ¬ (n = 2 ∨ n = 4 ∨ n = 6 ∨ n = 8 ∨ n = 11) ∧ code = 1
  | .encode info    => info.length ≠ s.ncfg.toNat ∧ code = 2
  | .decode llr     => llr.length ≠ 20 ∧ code = 3
  | .modulate cw    => cw.length ≠ 20 ∧ code = 4
  | .demodulate sym => sym.length ≠ 10 ∧ code = 5
  | .setsnr _       => False
  | .apply sym      => sym = [] ∧ code = 6

/-- A response of the form R62 gives it: the reserved bits are 0; a failure has one of the causes the
block can raise and an empty result (60_exceptions.md R131, R136); a success has `CAUSE = 0` and a
payload that holds `RLEN` elements of one type (30_encoding.md R60, R63). -/
def Response.WellFormed (r : Response) : Prop :=
  r.word.extractLsb' 28 3 = 0 ∧ r.word.extractLsb' 16 8 = 0 ∧
  ((errField r.word = true ∧ rlenField r.word = 0 ∧ r.payload = [] ∧
      causeField r.word ≠ 0 ∧ causeField r.word ≠ 7 ∧ (causeField r.word).toNat ≤ 9) ∨
   (errField r.word = false ∧ causeField r.word = 0 ∧
      ((∃ ws : List Word, r.payload = ws.map PayloadWord.bits ∧
          ws.length = bitWordCount (rlenField r.word).toNat) ∨
       (∃ xs : List NumWord, r.payload = xs.map PayloadWord.num ∧
          (xs.length = (rlenField r.word).toNat ∨ xs.length = 2 * (rlenField r.word).toNat)))))

/-- The invariant of the machine: `NCFG` holds a legal value (10_state.md R34) and every response
given is of the form R62. -/
def State.Inv (s : State) : Prop := NcfgLegal s.ncfg ∧ ∀ r ∈ s.responses, r.WellFormed

end Machine
end Sys2Proof
end

