-- ==== Sys2Proof/Certificates/Slice0/Obligations.lean ====
section
/-! DEFINITION. The statements for the provers. `s.ncfg.toNat = n.toNat` says that the block is
configured for the supported length `n`. A state written as `s with …` says the frame: every other
field is as before. -/

open Sys2Proof Sys2Proof.Machine

/-- Encoding (30_encoding.md R61, R64 to R66, R68): no bit of a command word or of a packed payload is
dropped. -/
def Obligations.DecodeOfEncodeIsIdentity : Prop :=
  ∀ i : Instr, WellFormed i → decode (encode i).1 (encode i).2 = .ok i

/-- Words written out in 95_test_vectors.md sections 2.1, 2.2 and in the operations' own examples. -/
def Obligations.SpecWordsDecode : Prop :=
  decode 0x12000000#32 [] = .ok (.config 2) ∧
  decode 0x1B000000#32 [] = .ok (.config 11) ∧
  decode 0x20000002#32 [.bits 0x00000001#32] = .ok (.encode [true, false]) ∧
  decode 0x20000002#32 [.bits 0xFFFFFFFD#32] = .ok (.encode [true, false]) ∧
  (∀ x : NumWord, decode 0x30000001#32 [.num x] = .ok (.decode [x])) ∧
  decode 0x40000002#32 [.bits 0x00000002#32] = .ok (.modulate [false, true]) ∧
  (∀ a b : NumWord, decode 0x50000001#32 [.num a, .num b] = .ok (.demodulate [⟨a, b⟩])) ∧
  (∀ x : NumWord, decode 0x60000001#32 [.num x] = .ok (.setsnr x)) ∧
  (∀ a b : NumWord, decode 0x70000001#32 [.num a, .num b] = .ok (.apply [⟨a, b⟩]))

/-- R69: a word with a payload of its elements either matches exactly one row and runs that row's
operation, or matches no row and is answered ILLEGAL_CMD. -/
def Obligations.EveryWordHasOneMeaning : Prop :=
  ∀ (s : State) (w : Word) (ws : List PayloadWord) (rest : List HostMove),
    s.host = .command ⟨w, ws⟩ :: rest →
    (∀ op : Opcode, w &&& op.mask = op.pattern →
      PayloadFits op (w.extractLsb' 0 16).toNat ws) →
    (∃ op i, w &&& op.mask = op.pattern ∧ (∀ op' : Opcode, w &&& op'.mask = op'.pattern → op' = op) ∧
      i.opcode = op ∧ decode w ws = .ok i ∧ step s = exec i { s with host := rest }) ∨
    ((∀ op : Opcode, w &&& op.mask ≠ op.pattern) ∧
      step s = .next { s with host := rest, responses := s.responses ++ [⟨0x88000000#32, []⟩] })

/-- R70: an illegal word is answered ILLEGAL_CMD whatever the state and the payload; no register, no
draw. -/
def Obligations.IllegalWordIsRefused : Prop :=
  ∀ (s : State) (w : Word) (ws : List PayloadWord) (rest : List HostMove),
    s.host = .command ⟨w, ws⟩ :: rest → IllegalWord w →
    step s = .next { s with host := rest, responses := s.responses ++ [⟨0x88000000#32, []⟩] }

/-- The five conditions of R70 are exactly the words that match no row of R68. -/
def Obligations.IllegalWordMatchesNoRow : Prop :=
  ∀ w : Word, IllegalWord w ↔ ∀ op : Opcode, w &&& op.mask ≠ op.pattern

/-- A step runs the command it decodes; around it a step only takes the move from the host's list
(log 6). -/
def Obligations.StepRunsDecodedCommand : Prop :=
  ∀ (s : State) (c : Command) (rest : List HostMove) (i : Instr),
    s.host = .command c :: rest → decode c.word c.payload = .ok i →
    step s = exec i { s with host := rest }

/-- R150, R151: a reset between two operations returns both registers to `NONE` and has no other
effect (the environment's fields are the model's, log 11). -/
def Obligations.StepTakesReset : Prop :=
  ∀ (s : State) (rest : List HostMove), s.host = .reset :: rest →
    step s = .next { s with host := rest, ncfg := 0, snr := none }

/-- The model's own conventions: an idle step changes nothing (log 7), and a payload that is not the
one a legal word announces stops the model (log 8). -/
def Obligations.StepWithoutATransaction : Prop :=
  (∀ s : State, s.host = [] → step s = .next s) ∧
  (∀ (s : State) (w : Word) (ws : List PayloadWord) (rest : List HostMove) (op : Opcode),
    s.host = .command ⟨w, ws⟩ :: rest → w &&& op.mask = op.pattern →
    ¬ PayloadFits op (w.extractLsb' 0 16).toNat ws → step s = .fault .payloadMismatch)

/-- R33: the registers and the table after reset, and no other move of the host returns either register
to `NONE`. -/
def Obligations.OnlyResetUnconfigures : Prop :=
  (State.reset.ncfg = 0 ∧ State.reset.snr = none ∧ State.reset.table = Config.codeTable) ∧
  ∀ s s' : State, step s = .next s' →
    (s.ncfg ≠ 0 → s'.ncfg = 0 → ∃ rest, s.host = .reset :: rest) ∧
    (s.snr ≠ none → s'.snr = none → ∃ rest, s.host = .reset :: rest)

/-- R81: a supported length becomes `NCFG`. -/
def Obligations.ConfigWritesSupportedLength : Prop :=
  ∀ (s : State) (n : BitVec 4), n = 2 ∨ n = 4 ∨ n = 6 ∨ n = 8 ∨ n = 11 →
    exec (.config n) s =
      .next { s with ncfg := n, responses := s.responses ++ [⟨0x00000000#32, []⟩] }

/-- R81, R82: any other argument is UNSUPPORTED_N and leaves `NCFG` as it was. -/
def Obligations.ConfigRefusesUnsupportedLength : Prop :=
  ∀ (s : State) (n : BitVec 4), ¬ (n = 2 ∨ n = 4 ∨ n = 6 ∨ n = 8 ∨ n = 11) →
    exec (.config n) s = .next { s with responses := s.responses ++ [⟨0x81000000#32, []⟩] }

/-- R84, R25, R64: bit `i` of the one result word is the GF(2) product of row `i` of the leading `N`
columns with the information vector, said as a parity; the pad bits are 0. -/
def Obligations.EncodeMultipliesGeneratorMatrix : Prop :=
  ∀ (s : State) (n : InfoLen) (info : List Bool),
    s.ncfg.toNat = n.toNat → info.length = n.toNat →
    ∃ w : Word,
      exec (.encode info) s =
        .next { s with responses := s.responses ++ [⟨0x00000014#32, [.bits w]⟩] } ∧
      (∀ i : Fin 20, w.getLsbD i = decide ((Finset.univ.filter fun j : Fin 13 =>
        j.val < n.toNat ∧ info[j.val]? = some true ∧ tblRead s.table i j = true).card % 2 = 1)) ∧
      (∀ k, 20 ≤ k → w.getLsbD k = false)

/-- R83: ENCODE succeeds when `LEN = NCFG` and answers INFO_LEN otherwise. -/
def Obligations.EncodeChecksLength : Prop :=
  ∀ (s : State) (n : InfoLen) (info : List Bool), s.ncfg.toNat = n.toNat →
    (info.length ≠ n.toNat → exec (.encode info) s =
      .next { s with responses := s.responses ++ [⟨0x82000000#32, []⟩] }) ∧
    (info.length = n.toNat → ∃ p, exec (.encode info) s =
      .next { s with responses := s.responses ++ [⟨0x00000014#32, p⟩] })

/-- R85: the five laws of ENCODE, for every table. -/
def Obligations.EncoderObeysItsFiveLaws : Prop :=
  ∀ (t : CodeTable) (n : InfoLen),
    encodeVector t n (List.replicate n.toNat false) = List.replicate 20 false ∧
    (∀ u v : List Bool, u.length = n.toNat → v.length = n.toNat →
      encodeVector t n (List.zipWith xor u v) =
        List.zipWith xor (encodeVector t n u) (encodeVector t n v)) ∧
    (∀ j : Fin 13, j.val < n.toNat →
      encodeVector t n ((List.range n.toNat).map fun k => k == j.val) = t.column j) ∧
    (∀ v : List Bool, v.length = n.toNat →
      encodeVector t n v =
        ((List.finRange 13).filter fun j : Fin 13 => v[j.val]? == some true).foldl
          (fun acc j => List.zipWith xor acc (t.column j)) (List.replicate 20 false)) ∧
    (∀ (n' : InfoLen) (v : List Bool), n.toNat < n'.toNat → v.length = n.toNat →
      encodeVector t n' (v ++ List.replicate (n'.toNat - n.toNat) false) = encodeVector t n v)

/-- R86: both word forms of ENCODE, by columns and by rows. -/
def Obligations.EncoderHasTwoWordForms : Prop :=
  ∀ (t : CodeTable) (n : InfoLen) (c : Nat), c < 2 ^ n.toNat →
    bits2u (encodeVector t n (u2bits n.toNat c)) =
      ((List.finRange 13).filter fun j : Fin 13 => j.val < n.toNat && c.testBit j.val).foldl
        (fun acc j => acc ^^^ t.colNum j) 0 ∧
    (∀ i : Fin 20, codewordBit t n (u2bits n.toNat c) i =
      decide (((Finset.range 13).filter fun k =>
        (c &&& t.rowNum i &&& (2 ^ n.toNat - 1)).testBit k = true).card % 2 = 1))

/-- R92, R93: DECODE answers the smallest candidate number among those that reach the greatest
metric, the metrics taken as reals. -/
def Obligations.DecodeReturnsFirstMaximum : Prop :=
  ∀ (s : State) (n : InfoLen) (ls : List QA), s.ncfg.toNat = n.toNat → ls.length = 20 →
    ∃ best : Nat, best < 2 ^ n.toNat ∧
      (∀ c, c < 2 ^ n.toNat → realMetric s.table n ls c ≤ realMetric s.table n ls best) ∧
      (∀ c, c < best → realMetric s.table n ls c < realMetric s.table n ls best) ∧
      exec (.decode (ls.map .real)) s = .next { s with responses := s.responses ++
        [⟨BitVec.ofNat 32 n.toNat, [.bits (BitVec.ofNat 32 best)]⟩] }

/-- R90: DECODE succeeds on 20 reals and answers LLR_LEN to any other number, whatever the values and
whatever `N`. -/
def Obligations.DecodeChecksLength : Prop :=
  ∀ (s : State) (n : InfoLen), s.ncfg.toNat = n.toNat →
    (∀ llr : List NumWord, llr.length ≠ 20 →
      exec (.decode llr) s = .next { s with responses := s.responses ++ [⟨0x83000000#32, []⟩] }) ∧
    (∀ ls : List QA, ls.length = 20 → ∃ p, exec (.decode (ls.map .real)) s =
      .next { s with responses := s.responses ++ [⟨BitVec.ofNat 32 n.toNat, p⟩] })

/-- R94: without a positive value no metric exceeds 0, and the lowest-numbered candidate wins. -/
def Obligations.DecodeWithoutPositiveEvidenceIsZero : Prop :=
  ∀ (s : State) (n : InfoLen) (ls : List QA), s.ncfg.toNat = n.toNat → ls.length = 20 →
    (∀ x ∈ ls, x.toReal ≤ 0) →
    exec (.decode (ls.map .real)) s = .next { s with responses := s.responses ++
      [⟨BitVec.ofNat 32 n.toNat, [.bits 0x00000000#32]⟩] }

/-- R96 item 3: one positive factor on every LLR does not change the result. -/
def Obligations.DecodeIgnoresPositiveScale : Prop :=
  ∀ (s : State) (n : InfoLen) (ls : List QA) (k : QA), s.ncfg.toNat = n.toNat → ls.length = 20 →
    0 < k.toReal →
    ∃ s' : State, exec (.decode (ls.map .real)) s = .next s' ∧
      exec (.decode (ls.map fun x => .real (x.mul k))) s = .next s'

/-- R95, first part: with `+k` and `-k` by the bits of the codeword `x` of candidate `t`, the metric of a
candidate with codeword `y` is `k` times the ones `y` shares with `x` less those it does not; `t`
attains the maximum, only candidates with its codeword do, and DECODE answers the smallest of them. -/
def Obligations.TransmittedCandidateIsMaximal : Prop :=
  ∀ (s : State) (n : InfoLen) (t c : Nat) (k : QA), s.ncfg.toNat = n.toNat → t < 2 ^ n.toNat →
    c < 2 ^ n.toNat → 0 < k.toReal →
    let x := encodeVector s.table n (u2bits n.toNat t)
    let y := encodeVector s.table n (u2bits n.toNat c)
    let ls := x.map fun b => if b then k else k.neg
    realMetric s.table n ls c = k.toReal *
      (((y.zip x).count (true, true) : ℕ) - ((y.zip x).count (true, false) : ℕ)) ∧
    realMetric s.table n ls c ≤ k.toReal * (x.count true : ℕ) ∧
    (realMetric s.table n ls c = k.toReal * (x.count true : ℕ) ↔ y = x) ∧
    ∃ best : Nat, best < 2 ^ n.toNat ∧ encodeVector s.table n (u2bits n.toNat best) = x ∧
      (∀ b, b < best → encodeVector s.table n (u2bits n.toNat b) ≠ x) ∧
      exec (.decode (ls.map .real)) s = .next { s with responses := s.responses ++
        [⟨BitVec.ofNat 32 n.toNat, [.bits (BitVec.ofNat 32 best)]⟩] }

/-- R95, R121, R122: coding and then decoding, without noise, by the machine's own steps, gives the
lowest-numbered vector that shares the codeword, and under K3 the vector itself. (The procedures are
the model's form of them, log 13; their `n` is the `ARG` of a CONFIG, log 16.) -/
def Obligations.CodedVectorsDecodeBack : Prop :=
  ∀ (s : State) (n : InfoLen) (v : List Bool), v.length = n.toNat →
    ∃ sym s1 v' s2,
      HostProc.coding (BitVec.ofNat 4 n.toNat) v s = .ok (sym, s1) ∧
      HostProc.decoding (BitVec.ofNat 4 n.toNat) sym s1 = .ok (v', s2) ∧
      v'.length = n.toNat ∧ encodeVector s.table n v' = encodeVector s.table n v ∧
      (∀ u : List Bool, u.length = n.toNat →
        encodeVector s.table n u = encodeVector s.table n v → bits2u v' ≤ bits2u u) ∧
      (s.table.K3At n → v' = v)

/-- R100, R101: word `i` of the result is `+A` for bit 1 and `-A` for bit 0, so that symbol `k` has
bit `2k` on its real and bit `2k + 1` on its imaginary axis; any 20 bits, any state. -/
def Obligations.ModulateMapsBitsToAxes : Prop :=
  (⟨0, 1⟩ : QA).toReal = 1 / Real.sqrt 2 ∧ (⟨0, -1⟩ : QA).toReal = -(1 / Real.sqrt 2) ∧
  ∀ (s : State) (cw : List Bool), cw.length = 20 →
    exec (.modulate cw) s = .next { s with responses := s.responses ++ [⟨0x0000000A#32,
      cw.map fun b => .num (.real (if b then ⟨0, 1⟩ else ⟨0, -1⟩))⟩] }

/-- R101: any other number of bits is CW_LEN. -/
def Obligations.ModulateRefusesWrongLength : Prop :=
  ∀ (s : State) (cw : List Bool), cw.length ≠ 20 →
    exec (.modulate cw) s = .next { s with responses := s.responses ++ [⟨0x84000000#32, []⟩] }

/-- R102: LLR `2k` is the real and LLR `2k + 1` the imaginary part of symbol `k`, unchanged. -/
def Obligations.DemodulateCopiesParts : Prop :=
  ∀ (s : State) (zs : List (Cx QA)), zs.length = 10 →
    ∃ llr : List QA,
      exec (.demodulate (zs.map realCx)) s = .next { s with responses := s.responses ++
        [⟨0x00000014#32, llr.map fun x => .num (.real x)⟩] } ∧
      llr.length = 20 ∧
      ∀ k z, zs[k]? = some z → llr[2 * k]? = some z.re ∧ llr[2 * k + 1]? = some z.im

/-- R102: any other number of symbols is SYM_LEN, whatever the values. -/
def Obligations.DemodulateRefusesWrongLength : Prop :=
  ∀ (s : State) (sym : List (Cx NumWord)), sym.length ≠ 10 →
    exec (.demodulate sym) s = .next { s with responses := s.responses ++ [⟨0x85000000#32, []⟩] }

/-- R103: demodulating what was modulated gives `+A` for each 1 and `-A` for each 0, and `A` is
positive, so the sign of each LLR tells its bit. -/
def Obligations.DemodulateOfModulateGivesSigns : Prop :=
  0 < QA.constA.toReal ∧
  ∀ (s : State) (cw : List Bool), cw.length = 20 →
    ∃ r s2, exec (.modulate cw) s = .next { s with responses := s.responses ++ [r] } ∧
      exec (.demodulate (HostProc.resultCxs r)) { s with responses := s.responses ++ [r] } =
        .next s2 ∧
      ∃ r2, s2.responses = s.responses ++ [r, r2] ∧
        HostProc.resultNums r2 = cw.map fun b => .real (if b then QA.constA else QA.constA.neg)

/-- R105: MODULATE and DEMODULATE give the same response in any two states and write nothing else.
(Symbols that are not finite reals are refused in both, log 5.) -/
def Obligations.MapperDependsOnPayloadAlone : Prop :=
  ∀ (s t : State) (cw : List Bool) (sym : List (Cx NumWord)),
    (∃ r, exec (.modulate cw) s = .next { s with responses := s.responses ++ [r] } ∧
      exec (.modulate cw) t = .next { t with responses := t.responses ++ [r] }) ∧
    ((∃ r, exec (.demodulate sym) s = .next { s with responses := s.responses ++ [r] } ∧
      exec (.demodulate sym) t = .next { t with responses := t.responses ++ [r] }) ∨
     ((∀ zs : List (Cx QA), sym ≠ zs.map realCx) ∧
      exec (.demodulate sym) s = .refused .nonFiniteOperand ∧
      exec (.demodulate sym) t = .refused .nonFiniteOperand))

/-- R111: SETSNR stores any finite real. -/
def Obligations.SetsnrStoresAnyFiniteReal : Prop :=
  ∀ (s : State) (x : QA), exec (.setsnr (.real x)) s =
    .next { s with snr := some x, responses := s.responses ++ [⟨0x00000000#32, []⟩] }

/-- R112, R114, R116: APPLY answers as many symbols as it is given, each with two draws scaled by
`sigma` added to its parts, draw `2k` to the real part; it takes `2 * LEN` draws and writes no
register. Draw `i` is the connected source's answer, and once that source has no more to say a free
value (log 4); the statement holds for every value of either. The connected source answers finite
reals (log 5). -/
def Obligations.ApplyAddsScaledDraws : Prop :=
  ∀ (s : State) (x : QA) (zs : List (Cx QA)), s.snr = some x → zs ≠ [] → zs.length ≤ 65535 →
    (∀ i, i < 2 * zs.length → s.noise[i]? ≠ some .nonFinite) →
    ∃ (g : Nat → QA) (out : List (Cx QA)),
      (∀ i, i < 2 * zs.length → s.noise[i]? = some (.real (g i)) ∨
        (s.noise[i]? = none ∧ g i = Config.noiseDraw (s.drawn + i))) ∧
      exec (.apply (zs.map realCx)) s = .next { s with
        noise := s.noise.drop (2 * zs.length), drawn := s.drawn + 2 * zs.length,
        responses := s.responses ++
          [⟨BitVec.ofNat 32 zs.length, (flattenCx out).map fun v => .num (.real v)⟩] } ∧
      out.length = zs.length ∧
      ∀ k z, zs[k]? = some z → ∃ o, out[k]? = some o ∧
        o.re.toReal = z.re.toReal + (noiseDeviation x zs).toReal * (g (2 * k)).toReal ∧
        o.im.toReal = z.im.toReal + (noiseDeviation x zs).toReal * (g (2 * k + 1)).toReal

/-- R113: `P` is the mean of `|s|^2`, `PN` is `P / 10^(x/10)` where `x/10` is an integer, `sigma` is
never negative, and it is `sqrt(PN / 2)` wherever that root is in `NUM` (elsewhere a free value,
log 2). -/
def Obligations.CalibrationIsExactInNum : Prop :=
  ∀ (zs : List (Cx QA)) (z : ℤ),
    (signalPower zs).toReal = realPower zs ∧
    (noisePower (signalPower zs) (QA.ofRat (10 * z))).toReal = realPower zs / (10 : ℝ) ^ z ∧
    (∀ x : QA, 0 ≤ (noiseDeviation x zs).toReal) ∧
    (∀ r : QA, r.toReal = Real.sqrt (realPower zs / (10 : ℝ) ^ z / 2) →
      noiseDeviation (QA.ofRat (10 * z)) zs = r)

/-- R115 item 1: with zero signal power the output equals the input whatever the draws are, and the
draws are still made. -/
def Obligations.ApplyOnZeroPowerCopiesInput : Prop :=
  ∀ (s : State) (x : QA) (k : Nat), s.snr = some x → 0 < k → k ≤ 65535 →
    (∀ i, i < 2 * k → s.noise[i]? ≠ some .nonFinite) →
    exec (.apply (List.replicate k ⟨.real ⟨0, 0⟩, .real ⟨0, 0⟩⟩)) s = .next { s with
      noise := s.noise.drop (2 * k), drawn := s.drawn + 2 * k,
      responses := s.responses ++
        [⟨BitVec.ofNat 32 k, List.replicate (2 * k) (.num (.real ⟨0, 0⟩))⟩] }

/-- R112: an empty sequence is EMPTY_INPUT, with no draw. -/
def Obligations.ApplyRefusesEmptyInput : Prop :=
  ∀ (s : State) (x : QA), s.snr = some x →
    exec (.apply []) s = .next { s with responses := s.responses ++ [⟨0x86000000#32, []⟩] }

/-- R134: the order of the checks. An illegal word is reported from the word alone; then a missing
configuration; then the operation's own check; and where none fails the response has `ERR = 0`. (In a
state the invariant rules out, `NCFG` would hold no length.) -/
def Obligations.ChecksAreMadeInOrder : Prop :=
  ∀ (s : State) (w : Word) (ws : List PayloadWord) (rest : List HostMove),
    NcfgLegal s.ncfg → s.host = .command ⟨w, ws⟩ :: rest →
    (IllegalWord w →
      step s = .next { s with host := rest, responses := s.responses ++ [⟨0x88000000#32, []⟩] }) ∧
    ∀ i, decode w ws = .ok i →
      (Unconfigured i s →
        step s = .next { s with host := rest, responses := s.responses ++ [⟨0x89000000#32, []⟩] }) ∧
      (¬ Unconfigured i s → ∀ code, OwnCheckFails i s code →
        step s = .next { s with host := rest, responses := s.responses ++
          [⟨0x80000000#32 ||| (code.setWidth 32 <<< 24), []⟩] }) ∧
      (¬ Unconfigured i s → (∀ code, ¬ OwnCheckFails i s code) → ∀ s', step s = .next s' →
        ∃ r, s'.responses = s.responses ++ [r] ∧ r.word.getLsbD 31 = false)

/-- R136: a failing operation answers `ERR = 1`, a cause, `RLEN = 0` and no payload, and the state
after it is the state before it but for that response. -/
def Obligations.FailureLeavesStateAlone : Prop :=
  ∀ (s s' : State) (c : Command) (rest : List HostMove), s.host = .command c :: rest →
    step s = .next s' →
    ∃ r : Response, s'.responses = s.responses ++ [r] ∧
      (r.word.getLsbD 31 = true →
        (∃ code ∈ ([1, 2, 3, 4, 5, 6, 8, 9] : List (BitVec 4)),
          r.word = 0x80000000#32 ||| (code.setWidth 32 <<< 24)) ∧
        r.payload = [] ∧ s' = { s with host := rest, responses := s.responses ++ [r] })

/-- R137: nothing is sticky. After a failure the next move has the outcome it would have had without
it, with the same response. -/
def Obligations.NothingIsStickyAfterAFailure : Prop :=
  ∀ (s s1 : State) (c : Command) (rest : List HostMove) (r : Response),
    s.host = .command c :: rest → step s = .next s1 → s1.responses = s.responses ++ [r] →
    r.word.getLsbD 31 = true →
    (∀ t, step { s with host := rest } = .next t → ∃ rs, t.responses = s.responses ++ rs ∧
      step s1 = .next { t with responses := s1.responses ++ rs }) ∧
    (∀ f, step { s with host := rest } = .fault f → step s1 = .fault f) ∧
    (∀ e, step { s with host := rest } = .refused e → step s1 = .refused e)

/-- R132: which operation can raise what, by the cause codes of R131; MODULATE, for one, never answers
NOT_CONFIGURED. (ILLEGAL_CMD comes from the word, before there is an operation.) -/
def Obligations.OperationsRaiseOnlyTheirCauses : Prop :=
  ∀ (i : Instr) (s s' : State) (r : Response), exec i s = .next s' →
    s'.responses = s.responses ++ [r] → r.word.getLsbD 31 = true →
    r.word.extractLsb' 24 4 ∈ (match i.opcode with
      | .config     => [1]
      | .encode     => [2, 9]
      | .decode     => [3, 9]
      | .modulate   => [4]
      | .demodulate => [5]
      | .setsnr     => []
      | .apply      => [6, 9] : List (BitVec 4))

/-- R20, R26, R27, R30: only CONFIG writes `NCFG`, only SETSNR writes `SNR`, only APPLY draws, nothing
writes the table, and no operation touches the host's list or an earlier response. -/
def Obligations.OperationsWriteOnlyTheirRegister : Prop :=
  ∀ (i : Instr) (s s' : State), exec i s = .next s' →
    s'.table = s.table ∧ s'.host = s.host ∧ (∃ r, s'.responses = s.responses ++ [r]) ∧
    (i.opcode ≠ .config → s'.ncfg = s.ncfg) ∧ (i.opcode ≠ .setsnr → s'.snr = s.snr) ∧
    (i.opcode ≠ .apply → s'.noise = s.noise ∧ s'.drawn = s.drawn) ∧
    (s'.drawn = s.drawn ∧ s'.noise = s.noise ∨
      s'.drawn = s.drawn + 2 * i.len ∧ s'.noise = s.noise.drop (2 * i.len))

/-- R42: no step writes the Code Table; the five operations other than ENCODE and DECODE do the same
whatever it holds; ENCODE and DECODE read it. -/
def Obligations.OnlyEncodeAndDecodeReachTheTable : Prop :=
  (∀ s s' : State, step s = .next s' → s'.table = s.table) ∧
  (∀ (i : Instr) (s s' : State) (t : CodeTable), i.opcode ≠ .encode → i.opcode ≠ .decode →
    exec i s = .next s' → exec i { s with table := t } = .next { s' with table := t }) ∧
  (∀ op : Opcode, op = .encode ∨ op = .decode → ∃ (i : Instr) (s s1 s2 : State) (t : CodeTable),
    i.opcode = op ∧ exec i s = .next s1 ∧ exec i { s with table := t } = .next s2 ∧
    s1.responses ≠ s2.responses)

/-- R34 and R62 as an invariant: every step keeps `NCFG` legal and every response well-formed. -/
def Obligations.EveryStepKeepsTheInvariant : Prop :=
  ∀ s s' : State, s.Inv → step s = .next s' → s'.Inv

/-- The invariant holds at reset. -/
def Obligations.ResetSatisfiesTheInvariant : Prop := State.reset.Inv

/-- R48, R60, R160: a run over `k` commands gives `k` responses, after those already given, and leaves
the rest of the host's list. -/
def Obligations.RunsAnswerEachCommandOnce : Prop :=
  ∀ (cs : List Command) (s s' : State) (rest : List HostMove),
    s.host = cs.map .command ++ rest → core.run cs.length s = .next s' →
    s'.host = rest ∧ s'.table = s.table ∧
      ∃ rs : List Response, rs.length = cs.length ∧ s'.responses = s.responses ++ rs

/-- 93_implementation_defined.md U4 (log 5): where an operand or a draw that is not a finite real makes
the model refuse, after the checks of R134 have passed. -/
def Obligations.NonFiniteValuesAreRefused : Prop :=
  (∀ s : State, exec (.setsnr .nonFinite) s = .refused .nonFiniteOperand) ∧
  (∀ (s : State) (n : InfoLen) (llr : List NumWord), s.ncfg.toNat = n.toNat → llr.length = 20 →
    .nonFinite ∈ llr → exec (.decode llr) s = .refused .nonFiniteOperand) ∧
  (∀ (s : State) (sym : List (Cx NumWord)) (z : Cx NumWord), sym.length = 10 → z ∈ sym →
    z.re = .nonFinite ∨ z.im = .nonFinite →
    exec (.demodulate sym) s = .refused .nonFiniteOperand) ∧
  (∀ (s : State) (x : QA) (sym : List (Cx NumWord)) (z : Cx NumWord), s.snr = some x → z ∈ sym →
    z.re = .nonFinite ∨ z.im = .nonFinite →
    exec (.apply sym) s = .refused .nonFiniteOperand) ∧
  (∀ (s : State) (x : QA) (zs : List (Cx QA)) (i : Nat), s.snr = some x → i < 2 * zs.length →
    s.noise[i]? = some .nonFinite →
    exec (.apply (zs.map realCx)) s = .refused .nonFiniteDraw)

/-- R126: a count that is not positive fails before any trial, with no command reaching the block. -/
def Obligations.SimulateRefusesNonPositiveCount : Prop :=
  ∀ (n : BitVec 4) (iterations : Int) (snr : NumWord) (draw : Nat → Nat → Bool) (s : State),
    iterations ≤ 0 →
    HostProc.simulate n iterations snr draw s = .error (.refusedByHost .iterCount)

/-- R123: after the checks at the top no command of the loop can fail, and every trial is counted
once. The connected noise source answers finite reals (log 5). -/
def Obligations.SimulationCountsEveryTrial : Prop :=
  ∀ (n : InfoLen) (iterations : Int) (x : QA) (draw : Nat → Nat → Bool) (s : State),
    0 < iterations → .nonFinite ∉ s.noise →
    ∃ t s', HostProc.simulate (BitVec.ofNat 4 n.toNat) iterations (.real x) draw s = .ok (t, s') ∧
      ((t.success + t.failure : ℕ) : Int) = iterations ∧
      s'.drawn = s.drawn + 20 * iterations.toNat

/-- R95, R123: if every draw of every trial is 0 and the table meets K3, every trial succeeds, at any
SNR. (The procedure is the model's form of it, log 13.) -/
def Obligations.NoiselessSimulationNeverFails : Prop :=
  ∀ (n : InfoLen) (iterations : Nat) (x : QA) (draw : Nat → Nat → Bool) (s : State),
    0 < iterations → s.table.K3At n →
    (∀ i, i < 20 * iterations → s.noise[i]? = some (.real ⟨0, 0⟩)) →
    ∃ s', HostProc.simulate (BitVec.ofNat 4 n.toNat) iterations (.real x) draw s =
      .ok (⟨iterations, 0⟩, s')

/-- R128: a string that does not end in `j`, or has no sign after position 0, is malformed. -/
def Obligations.ParseNeedsMarkAndSign : Prop :=
  (∀ t : List Char, t.getLast? ≠ some 'j' → HostProc.parse t = none) ∧
  (∀ (c : Char) (r : List Char), (∀ d ∈ r, d ≠ '+' ∧ d ≠ '-') → HostProc.parse (c :: r) = none)

/-- R125: the Channel simulation mode returns the counts and `BLER`, a real in 0 to 1, whenever it
returns; and for a supported length, a positive count and finite reals it does return. (The mode is the
model's form of it, log 13.) -/
def Obligations.SimulationModeReportsBler : Prop :=
  (∀ (n iterations : Int) (snr : Option NumWord) (draw : Nat → Nat → Bool) (s s' : State)
    (r : HostProc.Report), HostProc.channelSimulation n iterations snr draw s = .ok (r, s') →
    ((r.success + r.failure : ℕ) : Int) = iterations ∧ 0 < r.success + r.failure ∧
    r.bler = r.failure / (r.success + r.failure : ℕ) ∧ 0 ≤ r.bler ∧ r.bler ≤ 1) ∧
  (∀ (n : InfoLen) (iterations : Int) (x : QA) (draw : Nat → Nat → Bool) (s : State),
    0 < iterations → .nonFinite ∉ s.noise →
    ∃ r s', HostProc.channelSimulation n.toNat iterations (some (.real x)) draw s = .ok (r, s'))

/-- R129, first sentence: an SNR that is not specified is 10 dB. -/
def Obligations.UnspecifiedSnrIsTenDecibels : Prop :=
  ∀ (n iterations : Int) (draw : Nat → Nat → Bool) (s : State),
    HostProc.channelSimulation n iterations none draw s =
      HostProc.channelSimulation n iterations (some (.real (QA.ofRat 10))) draw s

/-- R121, R122: a host's `N` that is not supported, and an input of the wrong length, end the two modes
with the cause the rules name, whatever the integer and however long the input. (An `N` that `ARG`
cannot hold, log 16, and an input that `LEN` cannot count, log 17, are refused by the host itself.) -/
def Obligations.HostModesFailWithTheirCause : Prop :=
  (∀ (n : Int) (bits : List Bool) (s : State), ¬ (n = 2 ∨ n = 4 ∨ n = 6 ∨ n = 8 ∨ n = 11) →
    ∃ e, HostProc.codingText n bits s = .error e ∧ e.cause? = some .unsupportedN ∧
      e.errorClass? = some .invalidArgument) ∧
  (∀ (n : InfoLen) (bits : List Bool) (s : State), bits.length ≠ n.toNat →
    ∃ e, HostProc.codingText n.toNat bits s = .error e ∧ e.cause? = some .infoLen ∧
      e.errorClass? = some .invalidArgument) ∧
  (∀ (n : Int) (texts : List (List Char)) (s : State), (∀ t ∈ texts, HostProc.parse t ≠ none) →
    ¬ (n = 2 ∨ n = 4 ∨ n = 6 ∨ n = 8 ∨ n = 11) →
    ∃ e, HostProc.decodingText n texts s = .error e ∧ e.cause? = some .unsupportedN ∧
      e.errorClass? = some .invalidArgument) ∧
  (∀ (n : InfoLen) (texts : List (List Char)) (s : State), (∀ t ∈ texts, HostProc.parse t ≠ none) →
    texts.length ≠ 10 →
    ∃ e, HostProc.decodingText n.toNat texts s = .error e ∧ e.cause? = some .symLen ∧
      e.errorClass? = some .invalidArgument)

/-- R122, R128: one malformed string ends the Decoding mode with an InvalidArgument-class failure,
before any command. -/
def Obligations.MalformedStringEndsDecoding : Prop :=
  HostProc.Stop.errorClass? .malformedText = some .invalidArgument ∧
  ∀ (n : Int) (texts : List (List Char)) (s : State) (t : List Char), t ∈ texts →
    HostProc.parse t = none → HostProc.decodingText n texts s = .error .malformedText

/-- R121, R122, R127: through the symbols' texts, with however many decimals the host writes, a coded
vector decodes back under K3. -/
def Obligations.TextsOfCodedVectorDecodeBack : Prop :=
  ∀ (s : State) (n : InfoLen) (v : List Bool), v.length = n.toNat → s.table.K3At n →
    ∃ texts s1 s2, HostProc.codingText n.toNat v s = .ok (texts, s1) ∧ texts.length = 10 ∧
      HostProc.decodingText n.toNat texts s1 = .ok (v, s2)

/-- R127, R128: a text is read back, each part within half a decimal of its value, and the host writes
six decimals or more. (Rounding to the nearest decimal is the model's reading, log 18.) -/
def Obligations.SymbolTextReadsBack : Prop :=
  (∀ (d : QA → Nat) (z : Cx QA), ∃ w, HostProc.parse (HostProc.fmtWith d z) = some w ∧
    |w.re.toReal - z.re.toReal| ≤ 1 / (2 * 10 ^ d z.re) ∧
    |w.im.toReal - z.im.toReal| ≤ 1 / (2 * 10 ^ d z.im)) ∧
  (∀ z : Cx QA, HostProc.fmt z = HostProc.fmtWith HostProc.decimals z) ∧
  (∀ x : QA, 6 ≤ HostProc.decimals x)

/-- R127's two examples and 95_test_vectors.md S11: the constellation at six decimals. -/
def Obligations.ConstellationTextAtSixDecimals : Prop :=
  HostProc.fmtWith (fun _ => 6) ⟨QA.constA, QA.constA⟩ = "0.707107+0.707107j".toList ∧
  HostProc.fmtWith (fun _ => 6) ⟨QA.constA.neg, QA.constA.neg⟩ = "-0.707107-0.707107j".toList ∧
  HostProc.fmtWith (fun _ => 6) ⟨QA.constA.neg, QA.constA⟩ = "-0.707107+0.707107j".toList ∧
  HostProc.fmtWith (fun _ => 6) ⟨QA.constA, QA.constA.neg⟩ = "0.707107-0.707107j".toList

/-- R128: the first sign after position 0 splits the string; each part must be a number; and the
imaginary part has the separator's sign. -/
def Obligations.ParseSplitsAtTheFirstInnerSign : Prop :=
  ∀ (c sign : Char) (r m : List Char), (∀ d ∈ r, d ≠ '+' ∧ d ≠ '-') → sign = '+' ∨ sign = '-' →
    HostProc.parse (c :: r ++ sign :: m ++ ['j']) =
      ((HostProc.number? (c :: r)).bind fun re =>
        (HostProc.number? (sign :: m)).map fun im => ⟨re, im⟩) ∧
    ∀ im, HostProc.number? (sign :: m) = some im →
      (sign = '+' → 0 ≤ im.toReal) ∧ (sign = '-' → im.toReal ≤ 0)

/-- R128: a string with any character before the last that no number has is malformed. (Which texts are
numbers is the model's reading, log 13; the exponent letters are set aside, log 19.) -/
def Obligations.ParseRefusesForeignCharacters : Prop :=
  ∀ (t : List Char) (c : Char), c ∈ t.dropLast → c.isDigit = false →
    c ∉ ['.', '+', '-', 'e', 'E'] → HostProc.parse t = none
end

