-- ==== Sys2Proof/Laws/Operands.lean ====
section
/-! SUPPORT. Packing and unpacking of payloads (30_encoding.md R64 to R66), and what a list of values
that are all present is. -/

namespace Sys2Proof

@[simp] theorem length_u2bits (n c : Nat) : (u2bits n c).length = n := by simp [u2bits]

@[simp] theorem u2bits_getElem (n c j : Nat) (h : j < (u2bits n c).length) :
    (u2bits n c)[j] = c.testBit j := by simp [u2bits]

theorem bits2u_lt (bs : List Bool) : bits2u bs < 2 ^ bs.length := by
  induction bs with
  | nil => simp [bits2u]
  | cons b bs ih => cases b <;> (simp [bits2u, pow_succ]; lia)

theorem testBit_bits2u (bs : List Bool) (j : Nat) : (bits2u bs).testBit j = (bs[j]?).getD false := by
  induction bs generalizing j with
  | nil => simp [bits2u]
  | cons b bs ih =>
    cases j with
    | zero => cases b <;> simp [bits2u, Nat.testBit_zero]
    | succ j =>
      rw [Nat.testBit_succ]
      have : bits2u (b :: bs) / 2 = bits2u bs := by cases b <;> (simp [bits2u]; try lia)
      simp [this, ih]

theorem u2bits_bits2u (bs : List Bool) : u2bits bs.length (bits2u bs) = bs := by
  apply List.ext_getElem
  · simp
  · intro j h1 h2
    simp [testBit_bits2u, List.getElem?_eq_getElem h2]

theorem bits2u_u2bits {n c : Nat} (h : c < 2 ^ n) : bits2u (u2bits n c) = c := by
  apply Nat.eq_of_testBit_eq
  intro j
  rw [testBit_bits2u]
  by_cases hj : j < n
  · simp [u2bits, hj]
  · have : c.testBit j = false := Nat.testBit_lt_two_pow
      (lt_of_lt_of_le h (Nat.pow_le_pow_right (by norm_num) (not_lt.mp hj)))
    simp [u2bits, hj, this]

@[simp] theorem length_packBits (bs : List Bool) : (packBits bs).length = bitWordCount bs.length := by
  simp [packBits]

@[simp] theorem length_unpackBits (n : Nat) (ws : List Word) : (unpackBits n ws).length = n := by
  simp [unpackBits]

/-- Unpacking gives back what was packed (R64). -/
theorem unpackBits_packBits (bs : List Bool) : unpackBits bs.length (packBits bs) = bs := by
  apply List.ext_getElem
  · simp
  · intro e h1 h2
    have hk : e / 32 < bitWordCount bs.length := by
      unfold bitWordCount; lia
    have hd : 32 * (e / 32) + e % 32 = e := by lia
    have hm : e % 32 < 32 := Nat.mod_lt _ (by norm_num)
    simp only [unpackBits, packBits, List.getElem_map, List.getElem_range]
    rw [List.getD_eq_getElem?_getD, List.getElem?_map, List.getElem?_range hk]
    simp only [Option.map_some, Option.getD_some, BitVec.getLsbD_ofNat, testBit_bits2u, hm,
      decide_true, Bool.true_and, List.getElem?_take_of_lt hm, List.getElem?_drop, hd,
      List.getElem?_eq_getElem h2]

/-- The bits of at most 32 elements are one word. -/
theorem packBits_single {bs : List Bool} (h0 : bs ≠ []) (h : bs.length ≤ 32) :
    packBits bs = [BitVec.ofNat 32 (bits2u bs)] := by
  have hl : bs.length ≠ 0 := fun h' => h0 (List.length_eq_zero_iff.mp h')
  have : bitWordCount bs.length = 1 := by unfold bitWordCount; lia
  simp [packBits, this, List.take_of_length_le h]

@[simp] theorem pairUp_flattenCx {α : Type} (zs : List (Cx α)) : pairUp (flattenCx zs) = zs := by
  induction zs with
  | nil => rfl
  | cons z r ih => simp [flattenCx, pairUp, ih]

@[simp] theorem length_flattenCx {α : Type} (zs : List (Cx α)) :
    (flattenCx zs).length = 2 * zs.length := by
  induction zs with
  | nil => rfl
  | cons z r ih => simp [flattenCx, ih]; lia

theorem length_pairUp {α : Type} : ∀ l : List α, (pairUp l).length = l.length / 2
  | []          => by simp [pairUp]
  | [_]         => by simp [pairUp]
  | _ :: _ :: r => by simp [pairUp, length_pairUp r]; lia

theorem flattenCx_pairUp {α : Type} : ∀ (l : List α), l.length % 2 = 0 → flattenCx (pairUp l) = l
  | [], _          => rfl
  | [_], h         => by simp at h
  | a :: b :: r, h => by
    simp only [pairUp, flattenCx]
    rw [flattenCx_pairUp r (by simp at h; lia)]

theorem map_flattenCx {α β : Type} (f : α → β) (zs : List (Cx α)) :
    (flattenCx zs).map f = flattenCx (zs.map fun z => ⟨f z.re, f z.im⟩) := by
  induction zs with
  | nil => rfl
  | cons z r ih => simp [flattenCx, ih]

theorem pairUp_map {α β : Type} (f : α → β) :
    ∀ l : List α, pairUp (l.map f) = (pairUp l).map fun z => ⟨f z.re, f z.im⟩
  | []          => rfl
  | [_]         => rfl
  | _ :: _ :: r => by simp [pairUp, pairUp_map f r]

/-- Element `k` of a sequence of pairs (R66). -/
theorem flattenCx_getElem? {α : Type} (zs : List (Cx α)) (k : Nat) :
    (flattenCx zs)[2 * k]? = zs[k]?.map Cx.re ∧ (flattenCx zs)[2 * k + 1]? = zs[k]?.map Cx.im := by
  induction zs generalizing k with
  | nil => simp [flattenCx]
  | cons z r ih =>
    cases k with
    | zero => simp [flattenCx]
    | succ k =>
      have h := ih k
      rw [show 2 * (k + 1) = 2 * k + 1 + 1 by lia]
      simpa [flattenCx] using h

theorem pairUp_getElem? {α : Type} (l : List α) (k : Nat) {a b : α}
    (ha : l[2 * k]? = some a) (hb : l[2 * k + 1]? = some b) : (pairUp l)[k]? = some ⟨a, b⟩ := by
  induction k generalizing l with
  | zero =>
    match l, ha, hb with
    | x :: y :: r, ha, hb => simp_all [pairUp]
    | [x], ha, hb => simp at hb
    | [], ha, hb => simp at ha
  | succ k ih =>
    match l, ha, hb with
    | x :: y :: r, ha, hb =>
      rw [show 2 * (k + 1) = 2 * k + 1 + 1 by lia] at ha hb
      simpa [pairUp] using ih r (by simpa using ha) (by simpa using hb)
    | [x], ha, hb => simp at hb
    | [], ha, hb => simp at ha

theorem readBits?_bitsPayload (bs : List Bool) : readBits? bs.length (bitsPayload bs) = some bs := by
  have h1 : (bitsPayload bs).map PayloadWord.toBits = packBits bs := by
    simp [bitsPayload, Function.comp_def, PayloadWord.toBits]
  have h2 : (bitsPayload bs).all PayloadWord.isBits = true := by
    simp [bitsPayload, PayloadWord.isBits]
  rw [readBits?, if_pos ⟨by simp [bitsPayload], h2⟩, h1, unpackBits_packBits]

theorem readNums?_numsPayload (xs : List NumWord) : readNums? xs.length (numsPayload xs) = some xs := by
  have h1 : (numsPayload xs).map PayloadWord.toNum = xs := by
    simp [numsPayload, Function.comp_def, PayloadWord.toNum]
  have h2 : (numsPayload xs).all PayloadWord.isNum = true := by
    simp [numsPayload, PayloadWord.isNum]
  rw [readNums?, if_pos ⟨by simp [numsPayload], h2⟩, h1]

theorem readCxs?_cxsPayload (zs : List (Cx NumWord)) : readCxs? zs.length (cxsPayload zs) = some zs := by
  have := readNums?_numsPayload (flattenCx zs)
  rw [length_flattenCx] at this
  rw [readCxs?, cxsPayload, this]
  simp

theorem allSome_eq_some {α : Type} {l : List (Option α)} {r : List α} :
    allSome l = some r ↔ l = r.map some := by
  induction l generalizing r with
  | nil => cases r <;> simp [allSome]
  | cons a l ih =>
    cases a with
    | none => cases r <;> simp [allSome]
    | some a =>
      cases r with
      | nil => simp [allSome]
      | cons b r => simp [allSome, ih]; tauto

theorem allSome_map_some {α : Type} (r : List α) : allSome (r.map some) = some r :=
  allSome_eq_some.mpr rfl

@[simp] theorem finiteReals?_real (ls : List QA) : finiteReals? (ls.map .real) = some ls := by
  have : ((ls.map NumWord.real).map NumWord.finite?) = ls.map some := by
    simp [Function.comp_def, NumWord.finite?]
  rw [finiteReals?, this, allSome_map_some]

@[simp] theorem finiteCxs?_realCx (zs : List (Cx QA)) : finiteCxs? (zs.map realCx) = some zs := by
  have : ((zs.map realCx).map finiteCx?) = zs.map some := by
    simp [Function.comp_def, finiteCx?, realCx, NumWord.finite?]
  rw [finiteCxs?, this, allSome_map_some]

theorem length_of_finiteReals? {xs : List NumWord} {ls : List QA} (h : finiteReals? xs = some ls) :
    ls.length = xs.length := by
  have := congrArg List.length (allSome_eq_some.mp h)
  simpa using this.symm

theorem length_of_finiteCxs? {xs : List (Cx NumWord)} {zs : List (Cx QA)}
    (h : finiteCxs? xs = some zs) : zs.length = xs.length := by
  have := congrArg List.length (allSome_eq_some.mp h)
  simpa using this.symm

end Sys2Proof
end

