-- ==== Sys2Proof/Laws/Decode.lean ====
section
/-! SUPPORT. The fields of a command word, and what the decoder accepts (30_encoding.md R61, R68,
R70). -/

namespace Sys2Proof

/-- Bit `k` of a packed word, field by field (R61). -/
theorem getLsbD_packWord (a b : BitVec 4) (c : BitVec 8) (d : BitVec 16) (k : Nat) :
    (packWord a b c d).getLsbD k =
      if k < 16 then d.getLsbD k else if k < 24 then c.getLsbD (k - 16)
      else if k < 28 then b.getLsbD (k - 24) else if k < 32 then a.getLsbD (k - 28) else false := by
  have ha : ∀ j, 4 ≤ j → a.getLsbD j = false := fun j hj => BitVec.getLsbD_of_ge a j hj
  have hb : ∀ j, 4 ≤ j → b.getLsbD j = false := fun j hj => BitVec.getLsbD_of_ge b j hj
  have hc : ∀ j, 8 ≤ j → c.getLsbD j = false := fun j hj => BitVec.getLsbD_of_ge c j hj
  have hd : ∀ j, 16 ≤ j → d.getLsbD j = false := fun j hj => BitVec.getLsbD_of_ge d j hj
  simp only [packWord, BitVec.getLsbD_or, BitVec.getLsbD_shiftLeft, BitVec.getLsbD_setWidth]
  split_ifs with h1 h2 h3 h4
  · simp [show k < 32 by lia, show k < 28 by lia, show k < 24 by lia, h1]
  · simp [show k < 32 by lia, show k < 28 by lia, h2, h1, hd k (by lia), show k - 16 < 32 by lia]
  · simp [show k < 32 by lia, h3, h2, h1, hd k (by lia), hc (k - 16) (by lia),
      show k - 24 < 32 by lia]
  · simp [h4, h3, h2, h1, hd k (by lia), hc (k - 16) (by lia), hb (k - 24) (by lia),
      show k - 28 < 32 by lia]
  · simp [h4]

@[simp] theorem opField_packWord (a b : BitVec 4) (c : BitVec 8) (d : BitVec 16) :
    opField (packWord a b c d) = a := by
  apply BitVec.eq_of_getLsbD_eq
  intro i hi
  simp only [opField, BitVec.getLsbD_extractLsb', getLsbD_packWord, hi, decide_true, Bool.true_and]
  rw [if_neg (by lia), if_neg (by lia), if_neg (by lia), if_pos (by lia), Nat.add_sub_cancel_left]

@[simp] theorem argField_packWord (a b : BitVec 4) (c : BitVec 8) (d : BitVec 16) :
    argField (packWord a b c d) = b := by
  apply BitVec.eq_of_getLsbD_eq
  intro i hi
  simp only [argField, BitVec.getLsbD_extractLsb', getLsbD_packWord, hi, decide_true, Bool.true_and]
  rw [if_neg (by lia), if_neg (by lia), if_pos (by lia), Nat.add_sub_cancel_left]

@[simp] theorem rsvField_packWord (a b : BitVec 4) (c : BitVec 8) (d : BitVec 16) :
    rsvField (packWord a b c d) = c := by
  apply BitVec.eq_of_getLsbD_eq
  intro i hi
  simp only [rsvField, BitVec.getLsbD_extractLsb', getLsbD_packWord, hi, decide_true, Bool.true_and]
  rw [if_neg (by lia), if_pos (by lia), Nat.add_sub_cancel_left]

@[simp] theorem lenField_packWord (a b : BitVec 4) (c : BitVec 8) (d : BitVec 16) :
    lenField (packWord a b c d) = d := by
  apply BitVec.eq_of_getLsbD_eq
  intro i hi
  simp only [lenField, BitVec.getLsbD_extractLsb', getLsbD_packWord, hi, decide_true, Bool.true_and]
  rw [if_pos (by lia), Nat.zero_add]

/-- A command word is its four fields (R61). -/
theorem packWord_fields (w : Word) :
    packWord (opField w) (argField w) (rsvField w) (lenField w) = w := by
  apply BitVec.eq_of_getLsbD_eq
  intro i hi
  rw [getLsbD_packWord]
  simp only [opField, argField, rsvField, lenField, BitVec.getLsbD_extractLsb']
  split_ifs with h1 h2 h3
  · simp [h1]
  · simp [show i - 16 < 8 by lia, show 16 + (i - 16) = i by lia]
  · simp [show i - 24 < 4 by lia, show 24 + (i - 24) = i by lia]
  · simp [show i - 28 < 4 by lia, show 28 + (i - 28) = i by lia]

theorem packWord_inj {a a' b b' : BitVec 4} {c c' : BitVec 8} {d d' : BitVec 16} :
    packWord a b c d = packWord a' b' c' d' ↔ a = a' ∧ b = b' ∧ c = c' ∧ d = d' := by
  constructor
  · intro h
    exact ⟨by simpa using congrArg opField h, by simpa using congrArg argField h,
      by simpa using congrArg rsvField h, by simpa using congrArg lenField h⟩
  · rintro ⟨rfl, rfl, rfl, rfl⟩; rfl

theorem packWord_and (a a' b b' : BitVec 4) (c c' : BitVec 8) (d d' : BitVec 16) :
    packWord a b c d &&& packWord a' b' c' d' =
      packWord (a &&& a') (b &&& b') (c &&& c') (d &&& d') := by
  apply BitVec.eq_of_getLsbD_eq
  intro i hi
  rw [BitVec.getLsbD_and]
  simp only [getLsbD_packWord]
  split_ifs <;> simp

theorem Opcode.ofBits?_toBits (op : Opcode) : Opcode.ofBits? op.toBits = some op := by
  cases op <;> decide

theorem Opcode.ofBits?_eq_some {b : BitVec 4} {op : Opcode} :
    Opcode.ofBits? b = some op ↔ b = op.toBits := by
  constructor
  · intro h
    revert h
    revert b
    cases op <;> decide
  · rintro rfl
    exact Opcode.ofBits?_toBits op

/-- What a word that selects a row looks like (R68, R70). -/
theorem selectRow_eq_ok {w : Word} {op : Opcode} :
    selectRow w = .ok op ↔ opField w = op.toBits ∧ rsvField w = 0 ∧
      (op ≠ .config → argField w = 0) ∧ (op = .config → lenField w = 0) ∧
      (op = .setsnr → lenField w = 1) := by
  unfold selectRow
  cases hb : Opcode.ofBits? (opField w) with
  | none =>
    simp only [reduceCtorEq, false_iff, not_and]
    intro h
    rw [h, Opcode.ofBits?_toBits] at hb
    cases hb
  | some op' =>
    have hop := Opcode.ofBits?_eq_some.mp hb
    have hinj : opField w = op.toBits ↔ op' = op := by
      constructor
      · intro h
        have := Opcode.ofBits?_toBits op
        rw [← h, hb] at this
        exact Option.some.inj this
      · rintro rfl; exact hop
    rw [hinj]
    simp only
    split_ifs with h1 h2 h3 h4
    · simp only [false_iff, not_and]
      exact fun _ h => absurd h h1
    · simp only [false_iff, not_and]
      rintro rfl - ha
      exact absurd (ha h2.1) h2.2
    · simp only [false_iff, not_and]
      rintro rfl - - ha
      exact absurd (ha h3.1) h3.2
    · simp only [false_iff, not_and]
      rintro rfl - - - ha
      exact absurd (ha h4.1) h4.2
    · simp only [Except.ok.injEq]
      constructor
      · rintro rfl
        push Not at h1 h2 h3 h4
        exact ⟨rfl, h1, h2, h3, h4⟩
      · exact fun h => h.1

/-- A row of the opcode table matches exactly the words that select it (R68). -/
theorem row_matches_iff (w : Word) (op : Opcode) :
    w &&& op.mask = op.pattern ↔ selectRow w = .ok op := by
  rw [selectRow_eq_ok]
  rw [← packWord_fields w]
  generalize opField w = a
  generalize argField w = b
  generalize rsvField w = c
  generalize lenField w = d
  simp only [opField_packWord, argField_packWord, rsvField_packWord, lenField_packWord]
  have key : ∀ (m1 m2 : BitVec 4) (m3 : BitVec 8) (m4 : BitVec 16) (p1 p2 : BitVec 4) (p3 : BitVec 8)
      (p4 : BitVec 16), op.mask = packWord m1 m2 m3 m4 → op.pattern = packWord p1 p2 p3 p4 →
      (packWord a b c d &&& op.mask = op.pattern ↔
        (a &&& m1 = p1 ∧ b &&& m2 = p2 ∧ c &&& m3 = p3 ∧ d &&& m4 = p4)) := by
    intro m1 m2 m3 m4 p1 p2 p3 p4 hm hp
    rw [hm, hp, packWord_and, packWord_inj]
  have o4 : ∀ x : BitVec 4, x &&& 15#4 = x := fun x => BitVec.and_allOnes (x := x)
  have o8 : ∀ x : BitVec 8, x &&& 255#8 = x := fun x => BitVec.and_allOnes (x := x)
  have o16 : ∀ x : BitVec 16, x &&& 65535#16 = x := fun x => BitVec.and_allOnes (x := x)
  cases op
  · rw [key 15#4 0#4 255#8 65535#16 1#4 0#4 0#8 0#16 (by decide) (by decide)]
    simp [o4, o8, o16, Opcode.toBits]
  · rw [key 15#4 15#4 255#8 0#16 2#4 0#4 0#8 0#16 (by decide) (by decide)]
    simp [o4, o8, Opcode.toBits]
    exact fun _ => and_comm
  · rw [key 15#4 15#4 255#8 0#16 3#4 0#4 0#8 0#16 (by decide) (by decide)]
    simp [o4, o8, Opcode.toBits]
    exact fun _ => and_comm
  · rw [key 15#4 15#4 255#8 0#16 4#4 0#4 0#8 0#16 (by decide) (by decide)]
    simp [o4, o8, Opcode.toBits]
    exact fun _ => and_comm
  · rw [key 15#4 15#4 255#8 0#16 5#4 0#4 0#8 0#16 (by decide) (by decide)]
    simp [o4, o8, Opcode.toBits]
    exact fun _ => and_comm
  · rw [key 15#4 15#4 255#8 65535#16 6#4 0#4 0#8 1#16 (by decide) (by decide)]
    simp [o4, o8, o16, Opcode.toBits]
    exact fun _ => and_left_comm
  · rw [key 15#4 15#4 255#8 0#16 7#4 0#4 0#8 0#16 (by decide) (by decide)]
    simp [o4, o8, Opcode.toBits]
    exact fun _ => and_comm

/-- The fields of an encoded word (R61). -/
theorem fields_word (i : Instr) :
    opField i.word = i.opcode.toBits ∧ argField i.word = i.arg ∧ rsvField i.word = 0 ∧
      lenField i.word = BitVec.ofNat 16 i.len :=
  ⟨opField_packWord .., argField_packWord .., rsvField_packWord .., lenField_packWord ..⟩

theorem lenField_word_toNat {i : Instr} (h : WellFormed i) : (lenField i.word).toNat = i.len := by
  rw [(fields_word i).2.2.2, BitVec.toNat_ofNat]
  exact Nat.mod_eq_of_lt (by have : i.len ≤ 65535 := h; lia)

/-- An encoded word selects its command's row. -/
theorem selectRow_word (i : Instr) : selectRow i.word = .ok i.opcode := by
  rw [selectRow_eq_ok]
  obtain ⟨h1, h2, h3, h4⟩ := fields_word i
  refine ⟨h1, h3, ?_, ?_, ?_⟩
  · intro h; rw [h2]; cases i <;> first | rfl | exact absurd rfl h
  · intro h; rw [h4]; cases i <;> first | rfl | cases h
  · intro h; rw [h4]; cases i <;> first | rfl | cases h

/-- What a decoded command says of its word: the row, and `LEN` elements of payload (R60, R61). -/
theorem decode_eq_ok {w : Word} {ws : List PayloadWord} {i : Instr} (h : decode w ws = .ok i) :
    ∃ op, selectRow w = .ok op ∧ readPayload op w ws = some i := by
  unfold decode at h
  split at h
  · cases h
  · split at h
    · cases h; exact ⟨_, ‹_›, ‹_›⟩
    · cases h

theorem readPayload_spec {op : Opcode} {w : Word} {ws : List PayloadWord} {i : Instr}
    (h : readPayload op w ws = some i) : i.opcode = op ∧ (op ≠ .config → op ≠ .setsnr →
      i.len = (lenField w).toNat) := by
  cases op <;> simp only [readPayload] at h
  · split_ifs at h; cases h; exact ⟨rfl, fun h => absurd rfl h⟩
  · obtain ⟨b, hb, rfl⟩ := Option.map_eq_some_iff.mp h
    unfold readBits? at hb; split_ifs at hb; cases hb
    exact ⟨rfl, fun _ _ => by simp [Instr.len]⟩
  · obtain ⟨b, hb, rfl⟩ := Option.map_eq_some_iff.mp h
    unfold readNums? at hb; split_ifs at hb with hc; cases hb
    exact ⟨rfl, fun _ _ => by simp [Instr.len, hc.1]⟩
  · obtain ⟨b, hb, rfl⟩ := Option.map_eq_some_iff.mp h
    unfold readBits? at hb; split_ifs at hb; cases hb
    exact ⟨rfl, fun _ _ => by simp [Instr.len]⟩
  · obtain ⟨b, hb, rfl⟩ := Option.map_eq_some_iff.mp h
    obtain ⟨c, hc, rfl⟩ := Option.map_eq_some_iff.mp hb
    unfold readNums? at hc; split_ifs at hc with hd; cases hc
    exact ⟨rfl, fun _ _ => by simp [Instr.len, length_pairUp, hd.1]⟩
  · split at h
    · cases h; exact ⟨rfl, fun _ h => absurd rfl h⟩
    · cases h
  · obtain ⟨b, hb, rfl⟩ := Option.map_eq_some_iff.mp h
    obtain ⟨c, hc, rfl⟩ := Option.map_eq_some_iff.mp hb
    unfold readNums? at hc; split_ifs at hc with hd; cases hc
    exact ⟨rfl, fun _ _ => by simp [Instr.len, length_pairUp, hd.1]⟩

/-- Only a payload error is left once the word selects a row. -/
theorem decode_of_selectRow {w : Word} {op : Opcode} (h : selectRow w = .ok op)
    (ws : List PayloadWord) : decode w ws =
      match readPayload op w ws with
      | some i => .ok i
      | none   => .error .payloadShape := by
  cases hr : readPayload op w ws <;> simp [decode, h, hr]

/-- Every command the decoder gives is one a command word can express (R61). -/
theorem wellFormed_of_decode {w : Word} {ws : List PayloadWord} {i : Instr}
    (h : decode w ws = .ok i) : WellFormed i := by
  obtain ⟨op, -, hp⟩ := decode_eq_ok h
  obtain ⟨hop, hl⟩ := readPayload_spec hp
  have hlt := (lenField w).isLt
  cases i <;> simp only [Instr.opcode] at hop <;> subst hop <;>
    simp [WellFormed, Config.maxLen, Instr.len] at * <;> lia

/-- The payloads the decoder reads are exactly those the word announces (R60, R63). -/
theorem payloadFits_iff {op : Opcode} {w : Word} {ws : List PayloadWord}
    (hs : selectRow w = .ok op) :
    PayloadFits op (w.extractLsb' 0 16).toNat ws ↔ ∃ i, readPayload op w ws = some i := by
  have hnum : ∀ k, (∃ l : List NumWord, ws = l.map .num ∧ l.length = k) ↔
      (∃ l, readNums? k ws = some l) := by
    intro k
    constructor
    · rintro ⟨l, rfl, rfl⟩; exact ⟨l, readNums?_numsPayload l⟩
    · rintro ⟨l, hl⟩
      unfold readNums? at hl
      split_ifs at hl with hc
      refine ⟨ws.map PayloadWord.toNum, ?_, by simpa using hc.1⟩
      rw [List.map_map]
      symm
      conv_rhs => rw [← List.map_id ws]
      apply List.map_congr_left
      intro x hx
      have := List.all_eq_true.mp hc.2 x hx
      cases x <;> simp_all [PayloadWord.isNum, PayloadWord.toNum]
  have hbit : ∀ k, (∃ l : List Word, ws = l.map .bits ∧ l.length = (k + 31) / 32) ↔
      (∃ l, readBits? k ws = some l) := by
    intro k
    constructor
    · rintro ⟨l, rfl, hl⟩
      refine ⟨unpackBits k l, ?_⟩
      rw [readBits?, if_pos ⟨by simp [bitWordCount, hl], by simp [PayloadWord.isBits]⟩]
      simp [Function.comp_def, PayloadWord.toBits]
    · rintro ⟨l, hl⟩
      unfold readBits? at hl
      split_ifs at hl with hc
      refine ⟨ws.map PayloadWord.toBits, ?_, by simpa [bitWordCount] using hc.1⟩
      rw [List.map_map]
      symm
      conv_rhs => rw [← List.map_id ws]
      apply List.map_congr_left
      intro x hx
      have := List.all_eq_true.mp hc.2 x hx
      cases x <;> simp_all [PayloadWord.isBits, PayloadWord.toBits]
  have hs' := selectRow_eq_ok.mp hs
  cases op <;> simp only [PayloadFits, readPayload]
  · cases ws <;> simp
  · rw [hbit]; simp [lenField, Option.map_eq_some_iff]
  · rw [hnum]; simp [lenField, Option.map_eq_some_iff]
  · rw [hbit]; simp [lenField, Option.map_eq_some_iff]
  · rw [hnum]; simp [lenField, Option.map_eq_some_iff, readCxs?]
  · have h1 : (lenField w).toNat = 1 := by rw [hs'.2.2.2.2 rfl]; rfl
    rw [show (w.extractLsb' 0 16).toNat = 1 from h1, h1, hnum]
    constructor
    · rintro ⟨l, hl⟩
      have : l.length = 1 := by
        unfold readNums? at hl; split_ifs at hl with hc; cases hl; simpa using hc.1
      obtain ⟨x, rfl⟩ := List.length_eq_one_iff.mp this
      exact ⟨.setsnr x, by rw [hl]⟩
    · rintro ⟨i, hi⟩
      split at hi
      · exact ⟨_, ‹_›⟩
      · cases hi
  · rw [hnum]; simp [lenField, Option.map_eq_some_iff, readCxs?]

/-- The five conditions of R70 are the words that select no row. -/
theorem illegalWord_iff (w : Word) : IllegalWord w ↔ ∃ e, selectRow w = .error e := by
  have h : (∃ e, selectRow w = .error e) ↔ ∀ op, selectRow w ≠ .ok op := by
    cases selectRow w <;> simp
  rw [h]
  simp only [ne_eq, selectRow_eq_ok]
  unfold IllegalWord
  change ((opField w = 0 ∨ 8 ≤ (opField w).toNat) ∨ rsvField w ≠ 0 ∨
    (argField w ≠ 0 ∧ opField w ≠ 1) ∨ (opField w = 1 ∧ lenField w ≠ 0) ∨
    (opField w = 6 ∧ lenField w ≠ 1)) ↔ _
  generalize opField w = a
  generalize argField w = b
  generalize rsvField w = c
  generalize lenField w = d
  constructor
  · rintro h op ⟨rfl, h2, h3, h4, h5⟩
    rcases h with h | h | h | h | h
    · revert h; cases op <;> decide
    · exact h h2
    · by_cases hc : op = .config
      · subst hc; exact h.2 rfl
      · exact h.1 (h3 hc)
    · have : op = .config := by revert h; cases op <;> simp [Opcode.toBits]
      exact h.2 (h4 this)
    · have : op = .setsnr := by revert h; cases op <;> simp [Opcode.toBits]
      exact h.2 (h5 this)
  · intro h
    by_contra hn
    push Not at hn
    obtain ⟨⟨h1, h2⟩, h3, h4, h5, h6⟩ := hn
    have hs : (Opcode.ofBits? a).isSome = true := by
      revert h1 h2; clear h h4 h5 h6; revert a; decide
    obtain ⟨op, hop⟩ := Option.isSome_iff_exists.mp hs
    obtain rfl := Opcode.ofBits?_eq_some.mp hop
    apply h op
    refine ⟨rfl, h3, ?_, ?_, ?_⟩
    · intro hc
      by_contra hb
      exact hc (by have := h4 hb; revert this; cases op <;> decide)
    · rintro rfl; exact h5 rfl
    · rintro rfl; exact h6 rfl

/-- The row is chosen from the word alone. -/
theorem selectRow_ne_payloadShape {w : Word} {e} (h : selectRow w = .error e) : e ≠ .payloadShape := by
  unfold selectRow at h
  split at h
  · cases h; simp
  · split_ifs at h <;> cases h <;> simp

end Sys2Proof
end

