-- ==== Sys2Proof/Laws/State.lean ====
section
/-! SUPPORT. What each update of the state does to each field: one lemma per field per update. -/

namespace Sys2Proof.Machine

variable (s : State)

@[simp] theorem State.addResponse_table (r : Response) : (s.addResponse r).table = s.table := rfl
@[simp] theorem State.addResponse_ncfg (r : Response) : (s.addResponse r).ncfg = s.ncfg := rfl
@[simp] theorem State.addResponse_snr (r : Response) : (s.addResponse r).snr = s.snr := rfl
@[simp] theorem State.addResponse_host (r : Response) : (s.addResponse r).host = s.host := rfl
@[simp] theorem State.addResponse_noise (r : Response) : (s.addResponse r).noise = s.noise := rfl
@[simp] theorem State.addResponse_drawn (r : Response) : (s.addResponse r).drawn = s.drawn := rfl
@[simp] theorem State.addResponse_responses (r : Response) : (s.addResponse r).responses = s.responses ++ [r] := rfl

@[simp] theorem State.setNcfg_table (n : BitVec 4) : (s.setNcfg n).table = s.table := rfl
@[simp] theorem State.setNcfg_ncfg (n : BitVec 4) : (s.setNcfg n).ncfg = n := rfl
@[simp] theorem State.setNcfg_snr (n : BitVec 4) : (s.setNcfg n).snr = s.snr := rfl
@[simp] theorem State.setNcfg_host (n : BitVec 4) : (s.setNcfg n).host = s.host := rfl
@[simp] theorem State.setNcfg_noise (n : BitVec 4) : (s.setNcfg n).noise = s.noise := rfl
@[simp] theorem State.setNcfg_drawn (n : BitVec 4) : (s.setNcfg n).drawn = s.drawn := rfl
@[simp] theorem State.setNcfg_responses (n : BitVec 4) : (s.setNcfg n).responses = s.responses := rfl

@[simp] theorem State.setSnr_table (x : QA) : (s.setSnr x).table = s.table := rfl
@[simp] theorem State.setSnr_ncfg (x : QA) : (s.setSnr x).ncfg = s.ncfg := rfl
@[simp] theorem State.setSnr_snr (x : QA) : (s.setSnr x).snr = some x := rfl
@[simp] theorem State.setSnr_host (x : QA) : (s.setSnr x).host = s.host := rfl
@[simp] theorem State.setSnr_noise (x : QA) : (s.setSnr x).noise = s.noise := rfl
@[simp] theorem State.setSnr_drawn (x : QA) : (s.setSnr x).drawn = s.drawn := rfl
@[simp] theorem State.setSnr_responses (x : QA) : (s.setSnr x).responses = s.responses := rfl

@[simp] theorem State.advanceNoise_table (k : Nat) : (s.advanceNoise k).table = s.table := rfl
@[simp] theorem State.advanceNoise_ncfg (k : Nat) : (s.advanceNoise k).ncfg = s.ncfg := rfl
@[simp] theorem State.advanceNoise_snr (k : Nat) : (s.advanceNoise k).snr = s.snr := rfl
@[simp] theorem State.advanceNoise_host (k : Nat) : (s.advanceNoise k).host = s.host := rfl
@[simp] theorem State.advanceNoise_noise (k : Nat) : (s.advanceNoise k).noise = s.noise.drop k := rfl
@[simp] theorem State.advanceNoise_drawn (k : Nat) : (s.advanceNoise k).drawn = s.drawn + k := rfl
@[simp] theorem State.advanceNoise_responses (k : Nat) : (s.advanceNoise k).responses = s.responses := rfl

@[simp] theorem State.setHost_table (rest : List HostMove) : (s.setHost rest).table = s.table := rfl
@[simp] theorem State.setHost_ncfg (rest : List HostMove) : (s.setHost rest).ncfg = s.ncfg := rfl
@[simp] theorem State.setHost_snr (rest : List HostMove) : (s.setHost rest).snr = s.snr := rfl
@[simp] theorem State.setHost_host (rest : List HostMove) : (s.setHost rest).host = rest := rfl
@[simp] theorem State.setHost_noise (rest : List HostMove) : (s.setHost rest).noise = s.noise := rfl
@[simp] theorem State.setHost_drawn (rest : List HostMove) : (s.setHost rest).drawn = s.drawn := rfl
@[simp] theorem State.setHost_responses (rest : List HostMove) : (s.setHost rest).responses = s.responses := rfl

@[simp] theorem State.resetBlock_table : (s.resetBlock).table = s.table := rfl
@[simp] theorem State.resetBlock_ncfg : (s.resetBlock).ncfg = 0 := rfl
@[simp] theorem State.resetBlock_snr : (s.resetBlock).snr = none := rfl
@[simp] theorem State.resetBlock_host : (s.resetBlock).host = s.host := rfl
@[simp] theorem State.resetBlock_noise : (s.resetBlock).noise = s.noise := rfl
@[simp] theorem State.resetBlock_drawn : (s.resetBlock).drawn = s.drawn := rfl
@[simp] theorem State.resetBlock_responses : (s.resetBlock).responses = s.responses := rfl

@[simp] theorem respond_table (k : Nat) (p : List PayloadWord) : (respond k p s).table = s.table := rfl
@[simp] theorem respond_ncfg (k : Nat) (p : List PayloadWord) : (respond k p s).ncfg = s.ncfg := rfl
@[simp] theorem respond_snr (k : Nat) (p : List PayloadWord) : (respond k p s).snr = s.snr := rfl
@[simp] theorem respond_host (k : Nat) (p : List PayloadWord) : (respond k p s).host = s.host := rfl
@[simp] theorem respond_noise (k : Nat) (p : List PayloadWord) : (respond k p s).noise = s.noise := rfl
@[simp] theorem respond_drawn (k : Nat) (p : List PayloadWord) : (respond k p s).drawn = s.drawn := rfl
@[simp] theorem respond_responses (k : Nat) (p : List PayloadWord) : (respond k p s).responses = s.responses ++ [⟨okWord k, p⟩] := rfl

@[simp] theorem raise_table (c : Cause) : (raise c s).table = s.table := rfl
@[simp] theorem raise_ncfg (c : Cause) : (raise c s).ncfg = s.ncfg := rfl
@[simp] theorem raise_snr (c : Cause) : (raise c s).snr = s.snr := rfl
@[simp] theorem raise_host (c : Cause) : (raise c s).host = s.host := rfl
@[simp] theorem raise_noise (c : Cause) : (raise c s).noise = s.noise := rfl
@[simp] theorem raise_drawn (c : Cause) : (raise c s).drawn = s.drawn := rfl
@[simp] theorem raise_responses (c : Cause) : (raise c s).responses = s.responses ++ [⟨errWord c, []⟩] := rfl

end Sys2Proof.Machine
end

