-- ==== Sys2Proof/Laws/Ops.lean ====
section
/-! SUPPORT. What each meaning and each step can do, said once: every next state of `exec` and of
`step` is one of the cases below. -/

namespace Sys2Proof

theorem InfoLen.ofBits?_eq_some {b : BitVec 4} {n : InfoLen} :
    InfoLen.ofBits? b = some n ↔ b.toNat = n.toNat := by
  revert b; cases n <;> decide

theorem InfoLen.ofBits?_eq_none {b : BitVec 4} :
    InfoLen.ofBits? b = none ↔ ¬ (b = 2 ∨ b = 4 ∨ b = 6 ∨ b = 8 ∨ b = 11) := by
  revert b; decide

theorem InfoLen.toNat_le (n : InfoLen) : 2 ≤ n.toNat ∧ n.toNat ≤ 11 := by cases n <;> decide

/-- The causes an operation can raise (60_exceptions.md R132). -/
def Opcode.causes : Opcode → List Cause
  | .config     => [.unsupportedN]
  | .encode     => [.infoLen, .notConfigured]
  | .decode     => [.llrLen, .notConfigured]
  | .modulate   => [.cwLen]
  | .demodulate => [.symLen]
  | .setsnr     => []
  | .apply      => [.emptyInput, .notConfigured]

@[simp] theorem errField_errWord (c : Cause) : errField (errWord c) = true := by
  cases c <;> decide

@[simp] theorem rlenField_errWord (c : Cause) : rlenField (errWord c) = 0 := by
  cases c <;> decide

@[simp] theorem causeField_errWord (c : Cause) : causeField (errWord c) = c.code := by
  cases c <;> decide

@[simp] theorem errField_okWord (k : Nat) : errField (okWord k) = false := by
  simp only [errField, okWord, BitVec.getLsbD_setWidth]
  simp

@[simp] theorem rlenField_okWord (k : Nat) : rlenField (okWord k) = BitVec.ofNat 16 k := by
  apply BitVec.eq_of_getLsbD_eq
  intro i hi
  simp only [rlenField, okWord, BitVec.getLsbD_extractLsb', BitVec.getLsbD_setWidth]
  simp [hi, show i < 32 by lia]

@[simp] theorem causeField_okWord (k : Nat) : causeField (okWord k) = 0 := by
  apply BitVec.eq_of_getLsbD_eq
  intro i hi
  simp only [causeField, okWord, BitVec.getLsbD_extractLsb', BitVec.getLsbD_setWidth]
  simp [BitVec.getLsbD_of_ge (BitVec.ofNat 16 k) (24 + i) (by lia)]

theorem okWord_eq {k : Nat} (h : k ≤ 65535) : okWord k = BitVec.ofNat 32 k := by
  apply BitVec.eq_of_toNat_eq
  simp only [okWord, BitVec.toNat_setWidth, BitVec.toNat_ofNat]
  rw [Nat.mod_eq_of_lt (by lia : k < 2 ^ 16)]

namespace Machine

theorem State.infoLen?_eq_some {s : State} {n : InfoLen} :
    s.infoLen? = some n ↔ s.ncfg.toNat = n.toNat := InfoLen.ofBits?_eq_some

/-- Every next state of an operation: a failure with one of its causes, or its own effect. -/
theorem exec_next_cases {i : Instr} {s s' : State} (h : exec i s = .next s') :
    (∃ c ∈ i.opcode.causes, s' = raise c s) ∨
    (∃ n m, i = .config n ∧ InfoLen.ofBits? n = some m ∧ s' = respond 0 [] (s.setNcfg n)) ∨
    (∃ info n, i = .encode info ∧ s.infoLen? = some n ∧ info.length = n.toNat ∧
      s' = respond 20 (bitsPayload (encodeVector s.table n info)) s) ∨
    (∃ llr ls n, i = .decode llr ∧ s.infoLen? = some n ∧ finiteReals? llr = some ls ∧
      llr.length = 20 ∧
      s' = respond n.toNat (bitsPayload (u2bits n.toNat (bestCandidate s.table n ls))) s) ∨
    (∃ cw, i = .modulate cw ∧ cw.length = 20 ∧
      s' = respond 10 (cxsPayload ((mapSymbols cw).map realCx)) s) ∨
    (∃ sym zs, i = .demodulate sym ∧ sym.length = 10 ∧ finiteCxs? sym = some zs ∧
      s' = respond 20 (numsPayload ((flattenCx zs).map .real)) s) ∨
    (∃ v, i = .setsnr (.real v) ∧ s' = respond 0 [] (s.setSnr v)) ∨
    (∃ sym zs x draws, i = .apply sym ∧ s.snr = some x ∧ sym ≠ [] ∧ finiteCxs? sym = some zs ∧
      s.draws? (2 * sym.length) = some draws ∧
      s' = respond sym.length (cxsPayload ((noisyCopy x zs draws).map realCx))
        (s.advanceNoise (2 * sym.length))) := by
  cases i with
  | config n =>
    simp only [exec, execConfig] at h
    split at h <;> cases h
    · exact .inl ⟨_, by simp [Opcode.causes, Instr.opcode], rfl⟩
    · exact .inr (.inl ⟨_, _, rfl, ‹_›, rfl⟩)
  | encode info =>
    simp only [exec, execEncode] at h
    split at h
    · cases h; exact .inl ⟨.notConfigured, by simp [Opcode.causes, Instr.opcode], rfl⟩
    · split at h <;> cases h
      · exact .inl ⟨.infoLen, by simp [Opcode.causes, Instr.opcode], rfl⟩
      · exact .inr (.inr (.inl ⟨_, _, rfl, ‹_›, not_not.mp ‹_›, rfl⟩))
  | decode llr =>
    simp only [exec, execDecode] at h
    split at h
    · cases h; exact .inl ⟨.notConfigured, by simp [Opcode.causes, Instr.opcode], rfl⟩
    · split at h
      · cases h; exact .inl ⟨.llrLen, by simp [Opcode.causes, Instr.opcode], rfl⟩
      · split at h <;> cases h
        exact .inr (.inr (.inr (.inl ⟨_, _, _, rfl, ‹_›, ‹_›, not_not.mp ‹_›, rfl⟩)))
  | modulate cw =>
    simp only [exec, execModulate] at h
    split at h <;> cases h
    · exact .inl ⟨.cwLen, by simp [Opcode.causes, Instr.opcode], rfl⟩
    · exact .inr (.inr (.inr (.inr (.inl ⟨_, rfl, not_not.mp ‹_›, rfl⟩))))
  | demodulate sym =>
    simp only [exec, execDemodulate] at h
    split at h
    · cases h; exact .inl ⟨.symLen, by simp [Opcode.causes, Instr.opcode], rfl⟩
    · split at h <;> cases h
      exact .inr (.inr (.inr (.inr (.inr (.inl ⟨_, _, rfl, not_not.mp ‹_›, ‹_›, rfl⟩)))))
  | setsnr x =>
    cases x <;> simp only [exec, execSetsnr, NumWord.finite?] at h <;> cases h
    exact .inr (.inr (.inr (.inr (.inr (.inr (.inl ⟨_, rfl, rfl⟩))))))
  | apply sym =>
    simp only [exec, execApply] at h
    split at h
    · cases h; exact .inl ⟨.notConfigured, by simp [Opcode.causes, Instr.opcode], rfl⟩
    · split at h
      · cases h; exact .inl ⟨.emptyInput, by simp [Opcode.causes, Instr.opcode], rfl⟩
      · rename_i hne
        split at h <;> cases h
        exact .inr (.inr (.inr (.inr (.inr (.inr (.inr
          ⟨_, _, _, _, rfl, ‹_›, by simpa using hne, ‹_›, ‹_›, rfl⟩))))))

/-- Every next state of a step: idle, a reset, an illegal word, or a decoded command. -/
theorem step_next_cases {s s' : State} (h : step s = .next s') :
    (s.host = [] ∧ s' = s) ∨
    (∃ rest, s.host = .reset :: rest ∧ s' = (s.setHost rest).resetBlock) ∨
    (∃ c rest, s.host = .command c :: rest ∧
      ((∃ e, selectRow c.word = .error e) ∧ s' = raise .illegalCmd (s.setHost rest) ∨
        ∃ i, decode c.word c.payload = .ok i ∧ exec i (s.setHost rest) = .next s')) := by
  unfold step at h
  split at h
  · cases h; exact .inl ⟨‹_›, rfl⟩
  · cases h; exact .inr (.inl ⟨_, ‹_›, rfl⟩)
  · refine .inr (.inr ⟨_, _, ‹_›, ?_⟩)
    rename_i c rest hh
    have herr : ∀ e, decode c.word c.payload = .error e → e ≠ .payloadShape →
        ∃ e, selectRow c.word = .error e := by
      intro e he hne
      unfold decode at he
      split at he
      · exact ⟨_, ‹_›⟩
      · split at he
        · cases he
        · cases he; exact absurd rfl hne
    unfold runCommand at h
    split at h <;> first
      | exact .inr ⟨_, ‹_›, h⟩
      | (cases h; done)
      | (cases h; exact .inl ⟨herr _ ‹_› (by simp), rfl⟩)

/-- An illegal word is answered by `raise` (R70). -/
theorem runCommand_of_error {w : Word} {ws} {s : State} {e} (h : selectRow w = .error e)
    (hr : e ≠ .payloadShape) : runCommand ⟨w, ws⟩ s = .next (raise .illegalCmd s) := by
  simp only [runCommand, decode, h]
  cases e <;> first | rfl | exact absurd rfl hr

end Machine
end Sys2Proof
end

