-- ==== Sys2Proof/Laws/HostProcedures.lean ====
section
/-! SUPPORT. What the shared pieces of the host procedures can do (44_host_composites.md). -/

namespace Sys2Proof.HostProc

open Sys2Proof.Machine

/-- A supported length reaches the block as its `ARG` (R121, log 16). -/
theorem withArg_supported {α : Type} (n : InfoLen) (run : BitVec 4 → Except Stop α) :
    withArg n.toNat run = run (BitVec.ofNat 4 n.toNat) := by
  cases n <;> rfl

/-- A successful response is the host's result (R120). -/
theorem takeResponse_success {s s' : State} {r : Response} (h : s'.responses = s.responses ++ [r])
    (hr : errField r.word = false) : takeResponse s (.next s') = .ok (r, s') := by
  simp [takeResponse, h, hr]

/-- A failed response ends the sequence with its cause (R120). -/
theorem takeResponse_raise (s : State) (c : Cause) :
    takeResponse s (.next (raise c s)) = .error (.failed c (raise c s)) := by
  have hc : Cause.ofCode? c.code = some c := by cases c <;> decide
  simp [takeResponse, raise, hc]

/-- Every trial is counted once (R123). -/
theorem trials_counts (vs : List (List Bool)) {t t' : Tally} {s s' : State}
    (h : trials vs t s = .ok (t', s')) :
    t'.success + t'.failure = t.success + t.failure + vs.length := by
  induction vs generalizing t s with
  | nil => cases h; simp
  | cons v vs ih =>
    simp only [trials] at h
    split at h
    · cases h
    · have := ih h; simp only [List.length_cons] at *; lia
    · have := ih h; simp only [List.length_cons] at *; lia

end Sys2Proof.HostProc
end

