-- ==== Sys2Proof/Laws/Numerics.lean ====
section
/-! SUPPORT. The arithmetic and the comparison of `NUM` are those of the reals, and the square root
and the power of ten are exact wherever their result is in `NUM`. -/

namespace Sys2Proof

theorem one_div_sqrt_two_sq : (1 / Real.sqrt 2) * (1 / Real.sqrt 2) = (1 / 2 : ℝ) := by
  rw [div_mul_div_comm, Real.mul_self_sqrt (by norm_num)]; norm_num

theorem one_div_sqrt_two_pos : (0 : ℝ) < 1 / Real.sqrt 2 := by positivity

@[simp] theorem QA.toReal_zero : QA.zero.toReal = 0 := by simp [QA.zero, QA.toReal]

@[simp] theorem QA.toReal_ofRat (q : ℚ) : (QA.ofRat q).toReal = q := by simp [QA.ofRat, QA.toReal]

@[simp] theorem QA.toReal_constA : QA.constA.toReal = 1 / Real.sqrt 2 := by
  simp [QA.constA, QA.toReal]

@[simp] theorem QA.toReal_neg (x : QA) : x.neg.toReal = -x.toReal := by
  simp only [QA.neg, QA.toReal]; push_cast; ring

@[simp] theorem QA.toReal_add (x y : QA) : (x.add y).toReal = x.toReal + y.toReal := by
  simp only [QA.add, QA.toReal]; push_cast; ring

@[simp] theorem QA.toReal_sub (x y : QA) : (x.sub y).toReal = x.toReal - y.toReal := by
  simp [QA.sub, sub_eq_add_neg]

@[simp] theorem QA.toReal_mul (x y : QA) : (x.mul y).toReal = x.toReal * y.toReal := by
  have h := one_div_sqrt_two_sq
  simp only [QA.mul, QA.toReal]
  push_cast
  linear_combination (-(x.coef : ℝ) * y.coef) * h

/-- `rat + coef * A` is 0 only when both parts are: `sqrt 2` is irrational. -/
theorem QA.toReal_eq_zero {x : QA} (h : x.toReal = 0) : x = QA.zero := by
  have hs : Real.sqrt 2 ≠ 0 := by positivity
  have hirr : Irrational (Real.sqrt 2) := irrational_sqrt_two
  have h1 : (x.rat : ℝ) * Real.sqrt 2 = -x.coef := by
    have : (x.rat : ℝ) * Real.sqrt 2 + x.coef = x.toReal * Real.sqrt 2 := by
      simp only [QA.toReal]; field_simp
    rw [h] at this; linarith
  have hr : x.rat = 0 := by
    by_contra hne
    apply hirr
    refine ⟨-x.coef / x.rat, ?_⟩
    push_cast
    rw [div_eq_iff (by exact_mod_cast hne), mul_comm]
    exact h1.symm
  have hc : x.coef = 0 := by
    rw [hr] at h1
    have : (x.coef : ℝ) = 0 := by simpa using h1.symm
    exact_mod_cast this
  cases x
  simp_all [QA.zero]

theorem QA.toReal_injective : Function.Injective QA.toReal := by
  intro x y h
  have h0 : (x.sub y).toReal = 0 := by simp [h]
  have := QA.toReal_eq_zero h0
  cases x; cases y
  simp only [QA.sub, QA.add, QA.neg, QA.zero, QA.mk.injEq] at this ⊢
  exact ⟨by linarith [this.1], by linarith [this.2]⟩

theorem QA.norm_eq_zero {y : QA} (h : y.rat * y.rat - y.coef * y.coef / 2 = 0) : y = QA.zero := by
  have hA := one_div_sqrt_two_sq
  have hR : ((y.rat : ℝ) * y.rat - y.coef * y.coef / 2) = 0 := by exact_mod_cast h
  have hprod : y.toReal * (QA.mk y.rat (-y.coef)).toReal = 0 := by
    simp only [QA.toReal]; push_cast
    linear_combination hR - (y.coef : ℝ) * y.coef * hA
  rcases mul_eq_zero.mp hprod with h0 | h0
  · exact QA.toReal_eq_zero h0
  · have := QA.toReal_eq_zero h0
    cases y
    simp_all [QA.zero]

@[simp] theorem QA.toReal_div (x y : QA) : (x.div y).toReal = x.toReal / y.toReal := by
  by_cases hy : y.rat * y.rat - y.coef * y.coef / 2 = 0
  · have := QA.norm_eq_zero hy
    subst this
    simp [QA.div, QA.mul, QA.zero, QA.toReal]
  · have hyR : ((y.rat : ℝ) * y.rat - y.coef * y.coef / 2) ≠ 0 := by exact_mod_cast hy
    have hA := one_div_sqrt_two_sq
    have hy0 : y.toReal ≠ 0 := by
      intro h0
      have := QA.toReal_eq_zero h0
      subst this
      exact hy (by simp [QA.zero])
    rw [eq_div_iff hy0, QA.div, QA.toReal_mul, mul_assoc]
    have hinv : (QA.mk (y.rat / (y.rat * y.rat - y.coef * y.coef / 2))
        (-y.coef / (y.rat * y.rat - y.coef * y.coef / 2))).toReal * y.toReal = 1 := by
      simp only [QA.toReal]
      push_cast
      generalize 1 / Real.sqrt 2 = a at hA
      rw [show ((y.rat : ℝ) / (y.rat * y.rat - y.coef * y.coef / 2) +
          -y.coef / (y.rat * y.rat - y.coef * y.coef / 2) * a) * (y.rat + y.coef * a) =
          (y.rat * y.rat - y.coef * y.coef * (a * a)) / (y.rat * y.rat - y.coef * y.coef / 2) by ring,
        hA, div_eq_one_iff_eq hyR]
      ring
    rw [hinv, mul_one]

/-- The comparison with zero is that of the reals (00_scope.md R11). -/
theorem QA.pos_iff (x : QA) : x.pos = true ↔ 0 < x.toReal := by
  have hA := one_div_sqrt_two_sq
  have hp := one_div_sqrt_two_pos
  obtain ⟨p, q⟩ := x
  simp only [QA.pos, QA.toReal]
  generalize 1 / Real.sqrt 2 = a at hA hp
  have cast0 : ∀ r : ℚ, (0 : ℝ) ≤ r ↔ 0 ≤ r := fun r => Rat.cast_nonneg
  split_ifs with h1 h2
  · have h1' : (0 : ℝ) ≤ p := (cast0 p).mpr h1
    have h2' : (0 : ℝ) ≤ q := (cast0 q).mpr h2
    simp only [Bool.or_eq_true, decide_eq_true_eq]
    constructor
    · rintro (h | h)
      · have : (0 : ℝ) < p := by exact_mod_cast h
        positivity
      · have : (0 : ℝ) < q := by exact_mod_cast h
        positivity
    · intro h
      by_contra hn
      push Not at hn
      have hp0 : p = 0 := le_antisymm hn.1 h1
      have hq0 : q = 0 := le_antisymm hn.2 h2
      simp [hp0, hq0] at h
  · have h1' : (0 : ℝ) ≤ p := (cast0 p).mpr h1
    have h2' : (q : ℝ) < 0 := by exact_mod_cast not_le.mp h2
    simp only [decide_eq_true_eq]
    have key : (q * q < 2 * (p * p)) ↔ ((q : ℝ) * a) * (q * a) < p * p := by
      rw [show ((q : ℝ) * a) * (q * a) = q * q / 2 by linear_combination (q : ℝ) * q * hA]
      constructor
      · intro h
        have : ((q * q : ℚ) : ℝ) < ((2 * (p * p) : ℚ) : ℝ) := by exact_mod_cast h
        push_cast at this; linarith
      · intro h
        have : ((q * q : ℚ) : ℝ) < ((2 * (p * p) : ℚ) : ℝ) := by push_cast; linarith
        exact_mod_cast this
    rw [key]
    constructor
    · intro h
      nlinarith [abs_lt_of_sq_lt_sq' (a := -(q : ℝ) * a) (b := p) (by nlinarith) h1']
    · intro h
      nlinarith [mul_neg_of_neg_of_pos h2' hp]
  · have h1' : (p : ℝ) < 0 := by exact_mod_cast not_le.mp h1
    simp only [Bool.and_eq_true, decide_eq_true_eq]
    have key : (2 * (p * p) < q * q) ↔ (p : ℝ) * p < ((q : ℝ) * a) * (q * a) := by
      rw [show ((q : ℝ) * a) * (q * a) = q * q / 2 by linear_combination (q : ℝ) * q * hA]
      constructor
      · intro h
        have : ((2 * (p * p) : ℚ) : ℝ) < ((q * q : ℚ) : ℝ) := by exact_mod_cast h
        push_cast at this; linarith
      · intro h
        have : ((2 * (p * p) : ℚ) : ℝ) < ((q * q : ℚ) : ℝ) := by push_cast; linarith
        exact_mod_cast this
    rw [key]
    constructor
    · rintro ⟨hq, h⟩
      have hq' : (0 : ℝ) < q := by exact_mod_cast hq
      have hqa : 0 < (q : ℝ) * a := mul_pos hq' hp
      nlinarith [abs_lt_of_sq_lt_sq' (a := -(p : ℝ)) (b := q * a) (by nlinarith) hqa.le]
    · intro h
      have hqa : 0 < (q : ℝ) * a := by linarith
      have hq' : (0 : ℝ) < q := by
        by_contra hn
        nlinarith [not_lt.mp hn]
      exact ⟨by exact_mod_cast hq', by nlinarith⟩

/-- `x > y` is the comparison of the reals (00_scope.md R11). -/
theorem QA.gt_iff (x y : QA) : x.gt y = true ↔ y.toReal < x.toReal := by
  simp [QA.gt, QA.pos_iff]

theorem QA.nonneg_iff (x : QA) : x.nonneg = true ↔ 0 ≤ x.toReal := by
  rw [QA.nonneg, Bool.not_eq_true', ← Bool.not_eq_true, QA.pos_iff]
  simp

@[simp] theorem QA.toReal_abs (x : QA) : x.abs.toReal = |x.toReal| := by
  unfold QA.abs
  split_ifs with h
  · rw [abs_of_nonneg ((QA.nonneg_iff x).mp h)]
  · have : ¬ 0 ≤ x.toReal := fun h' => h ((QA.nonneg_iff x).mpr h')
    rw [QA.toReal_neg, abs_of_neg (not_le.mp this)]

theorem QA.toReal_positive (x : QA) : 0 < x.positive.toReal := by
  unfold QA.positive
  split_ifs with h
  · simp
  · rw [QA.toReal_abs, abs_pos]
    exact fun h0 => h (QA.toReal_eq_zero h0)

theorem ratRoot?_sq (a : ℚ) : ratRoot? (a * a) = some |a| := by
  have hnum : (a * a).num = a.num * a.num := Rat.mul_self_num a
  have hden : (a * a).den = a.den * a.den := Rat.mul_self_den a
  have hr : ((Nat.sqrt (a * a).num.toNat : ℚ) / (Nat.sqrt (a * a).den : ℚ)) = |a| := by
    have h1 : (a.num * a.num).toNat = a.num.natAbs * a.num.natAbs := by
      rw [← Int.natAbs_mul_self (a := a.num), Int.toNat_natCast]
    rw [hnum, hden, h1, Nat.sqrt_eq, Nat.sqrt_eq]
    rw [Rat.abs_def, Rat.divInt_eq_div]
    simp
  simp only [ratRoot?, hr, abs_mul_abs_self, if_true]

theorem QA.exactSqrt?_spec {x r : QA} (h : x.exactSqrt? = some r) :
    0 ≤ r.toReal ∧ r.toReal * r.toReal = x.toReal := by
  have := List.find?_some h
  simp only [Bool.and_eq_true, decide_eq_true_eq] at this
  exact ⟨(QA.nonneg_iff r).mp this.1, by rw [← QA.toReal_mul, this.2]⟩

/-- Every non-negative square root in `NUM` is among the candidates. -/
theorem QA.mem_rootCandidates {r : QA} (hr0 : 0 ≤ r.toReal) : r ∈ (r.mul r).rootCandidates := by
  have hA := one_div_sqrt_two_pos
  obtain ⟨a, b⟩ := r
  by_cases hab : a * b + b * a = 0
  · have hc : (QA.mul ⟨a, b⟩ ⟨a, b⟩).coef = 0 := hab
    have hz : a = 0 ∨ b = 0 := by
      rcases mul_eq_zero.mp (show a * b = 0 by linarith) with h | h
      exacts [.inl h, .inr h]
    simp only [QA.rootCandidates, hc, if_true]
    rcases hz with rfl | rfl
    · have h2 : 2 * (QA.mul ⟨0, b⟩ ⟨0, b⟩).rat = b * b := by simp [QA.mul]; ring
      have hb : 0 ≤ b := by
        have h0 : (0 : ℝ) ≤ b * (1 / Real.sqrt 2) := by simpa [QA.toReal] using hr0
        exact_mod_cast nonneg_of_mul_nonneg_left h0 hA
      rw [h2, ratRoot?_sq, abs_of_nonneg hb]
      simp
    · have h1 : (QA.mul ⟨a, 0⟩ ⟨a, 0⟩).rat = a * a := by simp [QA.mul]
      have ha : 0 ≤ a := by
        have h0 : (0 : ℝ) ≤ a := by simpa [QA.toReal] using hr0
        exact_mod_cast h0
      rw [h1, ratRoot?_sq, abs_of_nonneg ha]
      simp
  · have hc : (QA.mul ⟨a, b⟩ ⟨a, b⟩).coef = 2 * (a * b) := by simp [QA.mul]; ring
    have hr : (QA.mul ⟨a, b⟩ ⟨a, b⟩).rat = a * a + b * b / 2 := by simp [QA.mul]
    have hne : ¬ (2 * (a * b) = 0) := fun h => hab (by linarith)
    have ha : a ≠ 0 := by rintro rfl; simp at hne
    have hD : (a * a + b * b / 2) * (a * a + b * b / 2) - 2 * (a * b) * (2 * (a * b)) / 2 =
        (a * a - b * b / 2) * (a * a - b * b / 2) := by ring
    have hin : (⟨a, b⟩ : QA) ∈ (ratRoot? (a * a)).toList.flatMap fun c =>
        [(⟨c, 2 * (a * b) / (2 * c)⟩ : QA), ⟨-c, -(2 * (a * b)) / (2 * c)⟩] := by
      rw [ratRoot?_sq]
      rcases abs_choice a with h | h <;> rw [h] <;> simp <;> field_simp <;> simp
    simp only [QA.rootCandidates, hc, hr, if_neg hne, hD, ratRoot?_sq, Option.toList_some,
      List.flatMap_cons, List.flatMap_nil, List.append_nil, List.mem_append]
    rcases abs_choice (a * a - b * b / 2) with h | h
    · left
      rw [h, show (a * a + b * b / 2 + (a * a - b * b / 2)) / 2 = a * a by ring]
      exact hin
    · right
      rw [h, show (a * a + b * b / 2 - -(a * a - b * b / 2)) / 2 = a * a by ring]
      exact hin

/-- The root is found wherever it is in `NUM` (43_awgn_channel.md R113). -/
theorem QA.sqrt_of_sq {x r : QA} (hr : 0 ≤ r.toReal) (h : r.toReal * r.toReal = x.toReal) :
    x.sqrt = r := by
  have hx : r.mul r = x := QA.toReal_injective (by rw [QA.toReal_mul, h])
  have hsome : ∃ r', x.exactSqrt? = some r' := by
    rw [← Option.isSome_iff_exists, QA.exactSqrt?, List.find?_isSome, ← hx]
    exact ⟨r, QA.mem_rootCandidates hr, by simp [(QA.nonneg_iff r).mpr hr]⟩
  obtain ⟨r', h'⟩ := hsome
  have hs := QA.exactSqrt?_spec h'
  rw [QA.sqrt, h']
  exact QA.toReal_injective ((mul_self_inj hs.1 hr).mp (hs.2.trans h.symm))

/-- The square root is never negative (43_awgn_channel.md R113). -/
theorem QA.sqrt_nonneg (x : QA) : 0 ≤ x.sqrt.toReal := by
  unfold QA.sqrt
  split
  · exact (QA.exactSqrt?_spec ‹_›).1
  · rw [QA.toReal_abs]; exact abs_nonneg _

theorem tenPow_cast (z : ℤ) : ((tenPow z : ℚ) : ℝ) = (10 : ℝ) ^ z := by
  unfold tenPow
  split_ifs with h
  · obtain ⟨n, rfl⟩ := Int.eq_ofNat_of_zero_le h
    simp
  · obtain ⟨n, hn⟩ := Int.eq_ofNat_of_zero_le (show 0 ≤ -z by lia)
    have hz : z = -(n : ℤ) := by lia
    subst hz
    simp

/-- A power of ten is strictly positive (R113). -/
theorem QA.pow10_pos (y : QA) : 0 < y.pow10.toReal := by
  unfold QA.pow10
  split_ifs
  · rw [QA.toReal_ofRat, tenPow_cast]; positivity
  · exact QA.toReal_positive _

/-- An integer power of ten is exact (R113). -/
theorem QA.toReal_pow10_int (z : ℤ) : (QA.ofRat z).pow10.toReal = (10 : ℝ) ^ z := by
  simp [QA.pow10, QA.ofRat, QA.toReal, tenPow_cast]

theorem sqrt_half_spec (q : ℕ) : (Nat.sqrt (q * q / 2) : ℝ) ≤ q * (1 / Real.sqrt 2) ∧
    q * (1 / Real.sqrt 2) < Nat.sqrt (q * q / 2) + 1 := by
  have hA := one_div_sqrt_two_sq
  have hp := one_div_sqrt_two_pos
  generalize 1 / Real.sqrt 2 = a at hA hp
  have hsq : ((q : ℝ) * a) * (q * a) = q * q / 2 := by linear_combination (q : ℝ) * q * hA
  have h1 : ((Nat.sqrt (q * q / 2) * Nat.sqrt (q * q / 2) * 2 : ℕ) : ℝ) ≤ (q * q : ℕ) := by
    have := Nat.sqrt_le (q * q / 2)
    exact_mod_cast (by lia : Nat.sqrt (q * q / 2) * Nat.sqrt (q * q / 2) * 2 ≤ q * q)
  have h2 : ((q * q : ℕ) : ℝ) <
      ((Nat.sqrt (q * q / 2) + 1) * (Nat.sqrt (q * q / 2) + 1) * 2 : ℕ) := by
    have := Nat.lt_succ_sqrt (q * q / 2)
    simp only [Nat.succ_eq_add_one] at this
    exact_mod_cast (by lia :
      q * q < (Nat.sqrt (q * q / 2) + 1) * (Nat.sqrt (q * q / 2) + 1) * 2)
  push_cast at h1 h2
  have hq : (0 : ℝ) ≤ q * a := by positivity
  exact ⟨abs_le_of_sq_le_sq' (by nlinarith) hq |>.2, abs_lt_of_sq_lt_sq' (by nlinarith)
    (by positivity) |>.2⟩

/-- `QA.floor` is the floor of the real number. -/
theorem QA.floor_eq (x : QA) : x.floor = ⌊x.toReal⌋ := by
  symm
  rw [Int.floor_eq_iff]
  set d : ℕ := x.rat.den * x.coef.den
  set p : ℤ := x.rat.num * x.coef.den
  set q : ℤ := x.coef.num * x.rat.den
  set e : ℤ := p + if 0 ≤ q then (Nat.sqrt (q.natAbs * q.natAbs / 2) : ℤ)
    else -((Nat.sqrt (q.natAbs * q.natAbs / 2) : ℤ) + 1)
  have hfloor : x.floor = e / (d : ℤ) := rfl
  have hd : 0 < d := Nat.mul_pos x.rat.den_pos x.coef.den_pos
  have hdR : (0 : ℝ) < d := by exact_mod_cast hd
  have hx : x.toReal * d = p + q * (1 / Real.sqrt 2) := by
    have h1 : ((x.rat.den : ℕ) : ℝ) ≠ 0 := by exact_mod_cast x.rat.den_ne_zero
    have h2 : ((x.coef.den : ℕ) : ℝ) ≠ 0 := by exact_mod_cast x.coef.den_ne_zero
    simp only [QA.toReal, d, p, q, Rat.cast_def]
    push_cast
    field_simp
  have he : (e : ℝ) ≤ x.toReal * d ∧ x.toReal * d < e + 1 := by
    rw [hx]
    obtain ⟨h1, h2⟩ := sqrt_half_spec q.natAbs
    have habs : (q.natAbs : ℝ) = |(q : ℝ)| := by rw [Nat.cast_natAbs, Int.cast_abs]
    rw [habs] at h1 h2
    by_cases hq : 0 ≤ q
    · rw [abs_of_nonneg (by exact_mod_cast hq)] at h1 h2
      simp only [e, if_pos hq]
      push_cast
      constructor <;> linarith
    · have hq' : (q : ℝ) < 0 := by exact_mod_cast not_le.mp hq
      rw [abs_of_neg hq'] at h1 h2
      have hne : (Nat.sqrt (q.natAbs * q.natAbs / 2) : ℝ) ≠ -q * (1 / Real.sqrt 2) := by
        intro h
        have h0 : (QA.mk (Nat.sqrt (q.natAbs * q.natAbs / 2)) q).toReal = 0 := by
          simp only [QA.toReal]; push_cast; linarith
        have := congrArg QA.coef (QA.toReal_eq_zero h0)
        simp only [QA.zero, Int.cast_eq_zero] at this
        exact hq this.ge
      have h3 := lt_of_le_of_ne h1 hne
      simp only [e, if_neg hq]
      push_cast
      constructor <;> linarith
  have hf1 : (((e / (d : ℤ) : ℤ) : ℝ)) * d ≤ e := by
    exact_mod_cast Int.ediv_mul_le e (by lia : (d : ℤ) ≠ 0)
  have hf2 : (e : ℝ) + 1 ≤ ((e / (d : ℤ) : ℤ) + 1) * d := by
    exact_mod_cast Int.lt_ediv_add_one_mul_self e (by lia : (0 : ℤ) < d)
  rw [hfloor]
  constructor
  · exact le_of_mul_le_mul_right (by linarith [he.1]) hdR
  · exact lt_of_mul_lt_mul_right (by linarith [he.2]) hdR.le

end Sys2Proof
end

