-- ==== Sys2Proof/Laws/PerInstr.lean ====
section
/-! SUPPORT. Facts about every command as syntax, one lemma per constructor: an encoded word has its
row's pattern under its row's mask (30_encoding.md R68). -/

namespace Sys2Proof.Laws.EncodedWord

/-- The command word of a command matches its row of the opcode table (R68). -/
def Statement (i : Instr) : Prop := i.word &&& i.opcode.mask = i.opcode.pattern

theorem config (n : BitVec 4) : Statement (.config n) :=
  (row_matches_iff _ _).mpr (selectRow_word (.config n))

theorem encode (info : List Bool) : Statement (.encode info) :=
  (row_matches_iff _ _).mpr (selectRow_word (.encode info))

theorem decode (llr : List NumWord) : Statement (.decode llr) :=
  (row_matches_iff _ _).mpr (selectRow_word (.decode llr))

theorem modulate (cw : List Bool) : Statement (.modulate cw) :=
  (row_matches_iff _ _).mpr (selectRow_word (.modulate cw))

theorem demodulate (sym : List (Cx NumWord)) : Statement (.demodulate sym) :=
  (row_matches_iff _ _).mpr (selectRow_word (.demodulate sym))

theorem setsnr (x : NumWord) : Statement (.setsnr x) :=
  (row_matches_iff _ _).mpr (selectRow_word (.setsnr x))

theorem apply (sym : List (Cx NumWord)) : Statement (.apply sym) :=
  (row_matches_iff _ _).mpr (selectRow_word (.apply sym))

end Sys2Proof.Laws.EncodedWord
end

