-- ==== Sys2Proof/Laws/SymbolText.lean ====
section
/-! SUPPORT. The digits that are written are the digits that are read, and a number text stands within
half a decimal of its value (44_host_composites.md R127, R128). -/

namespace Sys2Proof.HostProc

theorem digitChar_spec {k : Nat} (h : k < 10) :
    (digitChar k).isDigit = true ∧ (digitChar k).toNat - '0'.toNat = k := by
  have : ∀ k : Fin 10, (digitChar k).isDigit = true ∧ (digitChar k).toNat - '0'.toNat = k := by
    decide
  exact this ⟨k, h⟩

theorem digitsValue_append (a : List Char) (c : Char) :
    digitsValue (a ++ [c]) = 10 * digitsValue a + (c.toNat - '0'.toNat) := by
  simp [digitsValue]

theorem wholeDigits_spec {fuel n : Nat} (h : n ≤ fuel) :
    digitsValue (wholeDigits fuel n) = n ∧ (∀ c ∈ wholeDigits fuel n, c.isDigit = true) ∧
      wholeDigits fuel n ≠ [] := by
  induction fuel generalizing n with
  | zero =>
    obtain rfl : n = 0 := by lia
    obtain ⟨h1, h2⟩ := digitChar_spec (k := 0) (by norm_num)
    exact ⟨by simpa [wholeDigits, digitsValue] using h2, by simpa [wholeDigits] using h1,
      by simp [wholeDigits]⟩
  | succ fuel ih =>
    simp only [wholeDigits]
    split_ifs with hn
    · obtain ⟨h1, h2⟩ := digitChar_spec hn
      refine ⟨by simpa [digitsValue] using h2, by simpa using h1, by simp⟩
    · obtain ⟨g1, g2, g3⟩ := ih (n := n / 10) (by lia)
      obtain ⟨h1, h2⟩ := digitChar_spec (Nat.mod_lt n (by norm_num : 0 < 10))
      refine ⟨by rw [digitsValue_append, g1, h2]; lia, ?_, by simp⟩
      intro c hc
      rcases List.mem_append.mp hc with hc | hc
      · exact g2 c hc
      · rw [List.mem_singleton.mp hc]; exact h1

theorem lastDigits_spec (d n : Nat) : digitsValue (lastDigits d n) = n % 10 ^ d ∧
    (∀ c ∈ lastDigits d n, c.isDigit = true) ∧ (lastDigits d n).length = d := by
  induction d generalizing n with
  | zero => simp [lastDigits, digitsValue, Nat.mod_one]
  | succ d ih =>
    obtain ⟨g1, g2, g3⟩ := ih (n / 10)
    obtain ⟨h1, h2⟩ := digitChar_spec (Nat.mod_lt n (by norm_num : 0 < 10))
    refine ⟨?_, ?_, by simp [lastDigits, g3]⟩
    · rw [lastDigits, digitsValue_append, g1, h2, Nat.pow_succ, Nat.mul_comm (10 ^ d) 10,
        Nat.mod_mul]
      lia
    · intro c hc
      rcases List.mem_append.mp hc with hc | hc
      · exact g2 c hc
      · rw [List.mem_singleton.mp hc]; exact h1

/-- Digits, a point and digits are read as the number they write (R128). -/
theorem unsignedNumber?_decimal {w f : List Char} (hw : ∀ c ∈ w, c.isDigit = true) (h0 : w ≠ [])
    (hf : ∀ c ∈ f, c.isDigit = true) : unsignedNumber? (w ++ '.' :: f) =
      some (digitsValue w + (digitsValue f : ℚ) / (10 ^ f.length : Nat)) := by
  have h1 : (w ++ '.' :: f).takeWhile Char.isDigit = w := by
    rw [List.takeWhile_append_of_pos hw]; simp [show Char.isDigit '.' = false by decide]
  have h2 : (w ++ '.' :: f).dropWhile Char.isDigit = '.' :: f := by
    rw [List.dropWhile_append_of_pos hw]; simp [show Char.isDigit '.' = false by decide]
  have h3 : (f.all Char.isDigit && !(w.isEmpty && f.isEmpty)) = true := by
    rw [List.all_eq_true.mpr hf]; cases w <;> simp at h0 ⊢
  simp only [unsignedNumber?, h1, h2, h3, if_true]

/-- The nearest integer is within one half (R127). -/
theorem abs_nearest_sub_le (x : QA) : |(nearest x : ℝ) - x.toReal| ≤ 1 / 2 := by
  have h := QA.floor_eq (x.add (QA.ofRat (1 / 2)))
  have h1 := Int.floor_le (x.add (QA.ofRat (1 / 2))).toReal
  have h2 := Int.lt_floor_add_one (x.add (QA.ofRat (1 / 2))).toReal
  rw [← h] at h1 h2
  have hy : (x.add (QA.ofRat (1 / 2))).toReal = x.toReal + 1 / 2 := by simp
  rw [hy] at h1 h2
  simp only [nearest]
  split_ifs with ht
  · have h3 := congrArg QA.toReal ht.1
    rw [hy, QA.toReal_ofRat] at h3
    push_cast at h3 ⊢
    rw [abs_le]; constructor <;> linarith
  · rw [abs_le]; constructor <;> linarith

theorem nearest_nonneg {x : QA} (h : 0 ≤ x.toReal) : 0 ≤ nearest x := by
  have h1 := (abs_le.mp (abs_nearest_sub_le x)).1
  have h2 : (-1 : ℝ) < nearest x := by linarith
  have : (-1 : ℤ) < nearest x := by exact_mod_cast h2
  lia

/-- Which characters a magnitude's text has. -/
theorem mem_magnitudeText {d : Nat} {x : QA} {c : Char} (h : c ∈ magnitudeText d x) :
    c.isDigit = true ∨ c = '.' := by
  simp only [magnitudeText, List.mem_append, List.mem_cons] at h
  rcases h with h | h | h
  · exact .inl ((wholeDigits_spec le_rfl).2.1 c h)
  · exact .inr h
  · exact .inl ((lastDigits_spec _ _).2.1 c h)

theorem magnitudeText_ne_nil (d : Nat) (x : QA) : magnitudeText d x ≠ [] := by
  simp [magnitudeText]

theorem isExponentText_eq_false {t : List Char} (h : ∀ c ∈ t, isExponentMark c = false) :
    isExponentText t = false := by
  have : (t.dropWhile fun c => !isExponentMark c) = [] := by
    rw [List.dropWhile_eq_nil_iff]; intro c hc; simp [h c hc]
  simp [isExponentText, this]

/-- A magnitude's text is read as a magnitude within half a decimal of it (R127, R128). -/
theorem magnitude?_magnitudeText (d : Nat) {x : QA} (hx : 0 ≤ x.toReal) :
    ∃ y, magnitude? (magnitudeText d x) = some y ∧
      |y.toReal - x.toReal| ≤ 1 / (2 * 10 ^ d) := by
  have hmark : ∀ c ∈ magnitudeText d x, isExponentMark c = false := by
    intro c hc
    rcases mem_magnitudeText hc with h | rfl
    · by_contra hn
      have : c = 'e' ∨ c = 'E' := by simpa [isExponentMark, ← or_iff_not_imp_left] using hn
      rcases this with rfl | rfl <;> revert h <;> decide
    · decide
  have hm0 : 0 ≤ (x.mul (QA.ofRat (10 ^ d : Nat))).toReal := by
    rw [QA.toReal_mul, QA.toReal_ofRat]; positivity
  set n := (nearest (x.mul (QA.ofRat (10 ^ d : Nat)))).toNat with hn
  have hnR : ((n : ℕ) : ℝ) = nearest (x.mul (QA.ofRat (10 ^ d : Nat))) := by
    exact_mod_cast Int.toNat_of_nonneg (nearest_nonneg hm0)
  obtain ⟨w1, w2, w3⟩ := wholeDigits_spec (le_refl (n / 10 ^ d))
  obtain ⟨l1, l2, l3⟩ := lastDigits_spec d n
  refine ⟨QA.ofRat ((n : ℚ) / (10 ^ d : Nat)), ?_, ?_⟩
  · rw [magnitude?, isExponentText_eq_false hmark]
    have : magnitudeText d x =
        wholeDigits (n / 10 ^ d) (n / 10 ^ d) ++ '.' :: lastDigits d n := rfl
    rw [this, unsignedNumber?_decimal w2 w3 l2, w1, l1, l3]
    have hdm : (n : ℚ) = ((10 ^ d : ℕ) : ℚ) * (n / 10 ^ d : ℕ) + (n % 10 ^ d : ℕ) := by
      exact_mod_cast (Nat.div_add_mod n (10 ^ d)).symm
    have hp : ((10 ^ d : ℕ) : ℚ) ≠ 0 := by positivity
    simp only [Bool.false_eq_true, if_false, Option.map_some, Option.some.injEq]
    congr 1
    rw [eq_div_iff hp, add_mul, div_mul_cancel₀ _ hp]
    linarith
  · have h := abs_nearest_sub_le (x.mul (QA.ofRat (10 ^ d : Nat)))
    rw [← hnR, QA.toReal_mul, QA.toReal_ofRat] at h
    rw [QA.toReal_ofRat]
    push_cast at h ⊢
    have hp : (0 : ℝ) < 10 ^ d := by positivity
    have e : (n : ℝ) / 10 ^ d - x.toReal = ((n : ℝ) - x.toReal * 10 ^ d) / 10 ^ d := by
      field_simp
    rw [e, abs_div, abs_of_pos hp, div_le_iff₀ hp]
    calc |(n : ℝ) - x.toReal * 10 ^ d| ≤ 1 / 2 := h
      _ = 1 / (2 * 10 ^ d) * 10 ^ d := by field_simp

/-- A magnitude that is read is not negative (R128). -/
theorem magnitude?_nonneg {t : List Char} {y : QA} (h : magnitude? t = some y) : 0 ≤ y.toReal := by
  unfold magnitude? at h
  split_ifs at h
  · obtain ⟨z, -, rfl⟩ := Option.map_eq_some_iff.mp h
    rw [QA.toReal_abs]; exact abs_nonneg _
  · obtain ⟨q, hq, rfl⟩ := Option.map_eq_some_iff.mp h
    rw [QA.toReal_ofRat]
    have : 0 ≤ q := by
      unfold unsignedNumber? at hq
      simp only at hq
      split at hq
      · split_ifs at hq; cases hq; positivity
      · split_ifs at hq; cases hq; positivity
      · cases hq
    exact_mod_cast this

end Sys2Proof.HostProc
end

