-- ==== Sys2Proof/Laws/Units.lean ====
section
/-! SUPPORT. The pure functions of the four units: the encoder's bits, the decoder's metric and search,
the mapper's symbols, the channel's power (files 40 to 43 of the spec). -/

namespace Sys2Proof

@[simp] theorem length_encodeVector (t : CodeTable) (n : InfoLen) (v : List Bool) :
    (encodeVector t n v).length = 20 := by simp [encodeVector]

theorem encodeVector_getElem (t : CodeTable) (n : InfoLen) (v : List Bool) (i : Nat) (h : i < 20) :
    (encodeVector t n v)[i]'(by simpa using h) = codewordBit t n v ⟨i, h⟩ := by
  simp [encodeVector]

@[simp] theorem length_generatorRow (t : CodeTable) (n : InfoLen) (i : Fin 20) :
    (generatorRow t n i).length = n.toNat := by
  have := InfoLen.toNat_le n
  simp [generatorRow]; lia

theorem encodeVector_inj_iff (t : CodeTable) (n : InfoLen) (u v : List Bool) :
    encodeVector t n u = encodeVector t n v ↔ ∀ i, codewordBit t n u i = codewordBit t n v i := by
  simp [encodeVector]

/-- The correlation over the reals, term by term (41_ml_decoder.md R91). -/
theorem toReal_correlate (cw : List Bool) (ls : List QA) :
    (correlate cw ls).toReal = ((cw.zip ls).map fun p => if p.1 then p.2.toReal else 0).sum := by
  have key : ∀ (l : List (Bool × QA)) (acc : QA),
      (l.foldl (fun acc p => if p.1 then acc.add p.2 else acc) acc).toReal =
        acc.toReal + (l.map fun p => if p.1 then p.2.toReal else 0).sum := by
    intro l
    induction l with
    | nil => simp
    | cons p l ih =>
      intro acc
      obtain ⟨b, x⟩ := p
      rw [List.foldl_cons, ih]
      cases b
      · simp
      · simp [add_assoc]
  rw [correlate, key, QA.toReal_zero, zero_add]

/-- The metric is the real metric of R91. -/
theorem toReal_metric (t : CodeTable) (n : InfoLen) {ls : List QA} (h : ls.length = 20) (c : Nat) :
    (metric t n ls c).toReal = realMetric t n ls c := by
  rw [metric, toReal_correlate, realMetric]
  have hz : ((encodeVector t n (u2bits n.toNat c)).zip ls).map
      (fun p => if p.1 then p.2.toReal else 0) =
      List.ofFn fun i : Fin 20 =>
        if codewordBit t n (u2bits n.toNat c) i then (ls.getD i QA.zero).toReal else 0 := by
    apply List.ext_getElem
    · simp [h]
    · intro i h1 h2
      have hi : i < 20 := by simpa using h2
      have hl : i < ls.length := by lia
      rw [List.getElem_ofFn, List.getElem_map, List.getElem_zip, encodeVector_getElem t n _ i hi]
      simp only [List.getD_eq_getElem?_getD, List.getElem?_eq_getElem hl, Option.getD_some]
  rw [hz, List.sum_ofFn]

/-- The search keeps the smallest number among those with the greatest metric so far
(R92, R93). -/
theorem scan_spec (f : Nat → QA) (k : Nat) :
    let r := (List.range' 1 k).foldl
      (fun acc c => if (f c).gt acc.2 then (c, f c) else acc) (0, f 0)
    r.1 ≤ k ∧ r.2 = f r.1 ∧ (∀ c, c ≤ k → (f c).toReal ≤ (f r.1).toReal) ∧
      (∀ c, c < r.1 → (f c).toReal < (f r.1).toReal) := by
  induction k with
  | zero => simp
  | succ k ih =>
    rw [List.range'_1_concat, List.foldl_append]
    generalize (List.range' 1 k).foldl _ _ = r at ih
    obtain ⟨h1, h2, h3, h4⟩ := ih
    simp only [List.foldl_cons, List.foldl_nil]
    rw [Nat.add_comm 1 k]
    split_ifs with hg
    · rw [h2, QA.gt_iff] at hg
      refine ⟨le_refl _, rfl, ?_, ?_⟩
      · intro c hc
        rcases Nat.lt_or_ge c (k + 1) with hlt | hge
        · exact le_of_lt (lt_of_le_of_lt (h3 c (by lia)) hg)
        · rw [show c = k + 1 by lia]
      · intro c hc
        exact lt_of_le_of_lt (h3 c (by lia)) hg
    · rw [h2, QA.gt_iff, not_lt] at hg
      refine ⟨by lia, h2, ?_, h4⟩
      intro c hc
      rcases Nat.lt_or_ge c (k + 1) with hlt | hge
      · exact h3 c (by lia)
      · rw [show c = k + 1 by lia]; exact hg

/-- What DECODE's search answers (R92, R93). -/
theorem bestCandidate_spec (t : CodeTable) (n : InfoLen) (ls : List QA) :
    bestCandidate t n ls < 2 ^ n.toNat ∧
    (∀ c, c < 2 ^ n.toNat →
      (metric t n ls c).toReal ≤ (metric t n ls (bestCandidate t n ls)).toReal) ∧
    (∀ c, c < bestCandidate t n ls →
      (metric t n ls c).toReal < (metric t n ls (bestCandidate t n ls)).toReal) := by
  have hpos : 0 < 2 ^ n.toNat := by positivity
  have h := scan_spec (metric t n ls) (2 ^ n.toNat - 1)
  obtain ⟨h1, h2, h3, h4⟩ := h
  have hb : bestCandidate t n ls = ((List.range' 1 (2 ^ n.toNat - 1)).foldl
      (fun acc c => if (metric t n ls c).gt acc.2 then (c, metric t n ls c) else acc)
      (0, metric t n ls 0)).1 := rfl
  rw [hb]
  exact ⟨by lia, fun c hc => h3 c (by lia), h4⟩

/-- The symbols' words are `+A` and `-A` by the bits (42_qpsk_mapper.md R101). -/
theorem flattenCx_mapSymbols (cw : List Bool) (h : cw.length % 2 = 0) :
    flattenCx (mapSymbols cw) = cw.map axis := by
  have := map_flattenCx axis (pairUp cw)
  rw [flattenCx_pairUp cw h] at this
  rw [this]; rfl

/-- The mean power over the reals (43_awgn_channel.md R113). -/
theorem toReal_signalPower (zs : List (Cx QA)) : (signalPower zs).toReal = realPower zs := by
  have key : ∀ (l : List (Cx QA)) (acc : QA),
      (l.foldl (fun acc z => acc.add (normSq z)) acc).toReal =
        acc.toReal + (l.map fun z => z.re.toReal ^ 2 + z.im.toReal ^ 2).sum := by
    intro l
    induction l with
    | nil => simp
    | cons z l ih =>
      intro acc
      rw [List.foldl_cons, ih]
      simp [normSq, pow_two]; ring
  rw [signalPower, QA.toReal_div, key, realPower]
  simp

theorem length_noisyCopy {x : QA} {zs : List (Cx QA)} {draws : List QA}
    (h : draws.length = 2 * zs.length) : (noisyCopy x zs draws).length = zs.length := by
  simp [noisyCopy, length_pairUp, h]

theorem xorAll_cons (y l) : xorAll (y :: l) = xor y (xorAll l) := rfl

theorem xorAll_eq_parity (l : List Bool) : xorAll l = decide (l.count true % 2 = 1) := by
  induction l with
  | nil => rfl
  | cons b l ih =>
    have : xorAll (b :: l) = xor b (xorAll l) := rfl
    rw [this, ih, List.count_cons]
    have hm := Nat.mod_two_eq_zero_or_one (l.count true)
    cases b
    · simp
    · rcases hm with h | h <;> simp [h, Nat.add_mod]

theorem xorAll_map_xor {α : Type} (l : List α) (f g : α → Bool) :
    xorAll (l.map fun j => xor (f j) (g j)) = xor (xorAll (l.map f)) (xorAll (l.map g)) := by
  induction l with
  | nil => rfl
  | cons a l ih =>
    have : ∀ (h : α → Bool), xorAll ((a :: l).map h) = xor (h a) (xorAll (l.map h)) := fun _ => rfl
    rw [this, this, this, ih]
    cases f a <;> cases g a <;> simp

theorem xorAll_eq_false {α : Type} (l : List α) (f : α → Bool) (h : ∀ a ∈ l, f a = false) :
    xorAll (l.map f) = false := by
  induction l with
  | nil => rfl
  | cons a l ih =>
    have : xorAll ((a :: l).map f) = xor (f a) (xorAll (l.map f)) := rfl
    rw [this, ih (fun b hb => h b (by simp [hb])), h a (by simp)]; rfl

theorem xorAll_append (a b : List Bool) : xorAll (a ++ b) = xor (xorAll a) (xorAll b) := by
  induction a with
  | nil => simp [xorAll]
  | cons x a ih =>
    have : ∀ y l, xorAll (y :: l) = xor y (xorAll l) := fun _ _ => rfl
    rw [List.cons_append, this, this, ih]; simp

theorem xorAll_filter {α : Type} (L : List α) (p f : α → Bool) :
    xorAll ((L.filter p).map f) = xorAll (L.map fun j => p j && f j) := by
  induction L with
  | nil => rfl
  | cons a L ih =>
    have : ∀ y l, xorAll (y :: l) = xor y (xorAll l) := fun _ _ => rfl
    rw [List.map_cons, this, ← ih, List.filter_cons]
    cases h : p a
    · simp
    · simp [this]

/-- A codeword bit, by the columns read (40_block_encoder.md R84). -/
theorem codewordBit_eq (t : CodeTable) (n : InfoLen) (info : List Bool)
    (h : info.length = n.toNat) (i : Fin 20) : codewordBit t n info i =
      xorAll (((List.finRange 13).take n.toNat).map fun j =>
        (info[j.val]?).getD false && tblRead t i j) := by
  unfold codewordBit
  congr 1
  have := n.toNat_le
  apply List.ext_getElem
  · simp [h]; lia
  · intro k h1 h2
    have hk : k < n.toNat := by simp [h] at h1; lia
    have hk' : k < info.length := by lia
    simp [generatorRow, hk']

theorem mem_take_finRange {n : Nat} {j : Fin 13} : j ∈ (List.finRange 13).take n ↔ j.val < n := by
  constructor
  · intro h
    obtain ⟨k, hk, rfl⟩ := List.mem_iff_getElem.mp h
    simp at hk ⊢
    exact hk.1
  · intro h
    apply List.mem_iff_getElem.mpr
    exact ⟨j.val, by simp [h], by simp⟩

/-- The column form of the codeword, bit by bit (R85). -/
theorem foldl_column {t : CodeTable} (L : List (Fin 13)) (acc : List Bool) (ha : acc.length = 20) :
   (L.foldl (fun acc j => List.zipWith xor acc (t.column j)) acc).length = 20 ∧
   ∀ i : Fin 20, (L.foldl (fun acc j => List.zipWith xor acc (t.column j)) acc)[i.val]? =
     some (xor (acc[i.val]'(by lia)) (xorAll (L.map (tblRead t i)))) := by
  induction L generalizing acc with
  | nil => simp [ha, xorAll]
  | cons j L ih =>
    have h1 : (List.zipWith xor acc (t.column j)).length = 20 := by simp [ha, CodeTable.column]
    obtain ⟨a, b⟩ := ih _ h1
    refine ⟨a, fun i => ?_⟩
    rw [List.foldl_cons, b i]
    have : xorAll ((j :: L).map (tblRead t i)) = xor (tblRead t i j) (xorAll (L.map (tblRead t i))) := rfl
    rw [this]
    simp [CodeTable.column]

theorem foldl_xor_testBit {α : Type} (L : List α) (f : α → Nat) (acc i : Nat) :
   (L.foldl (fun acc j => acc ^^^ f j) acc).testBit i =
     xor (acc.testBit i) (xorAll (L.map fun j => (f j).testBit i)) := by
  induction L generalizing acc with
  | nil => simp [xorAll]
  | cons a L ih => rw [List.foldl_cons, ih, List.map_cons, xorAll_cons, Nat.testBit_xor]; simp

/-- The bits of a number given as a sum of powers of two (R86). -/
theorem sum_bits_testBit (n : Nat) (f : Fin n → Bool) (k : Nat) :
   (∑ i : Fin n, if f i then 2 ^ i.val else 0).testBit k =
     if h : k < n then f ⟨k, h⟩ else false := by
  have : (∑ i : Fin n, if f i then 2 ^ i.val else 0) = bits2u (List.ofFn f) := by
    induction n with
    | zero => simp [bits2u]
    | succ n ih =>
      rw [Fin.sum_univ_succ, List.ofFn_succ, bits2u, ← ih, Finset.mul_sum]
      congr 1
      · cases f 0 <;> simp
      · apply Finset.sum_congr rfl
        intro i _
        by_cases h : f i.succ <;> simp [h, pow_succ, mul_comm]
  rw [this, testBit_bits2u]
  by_cases h : k < n <;> simp [h]

/-- `M(0) = 0` (41_ml_decoder.md R91). -/
theorem realMetric_zero (t n ls) : realMetric t n ls 0 = 0 := by
  unfold realMetric
  apply Finset.sum_eq_zero
  intro i _
  rw [codewordBit_eq _ _ _ (by simp), xorAll_eq_false]
  · simp
  · intro j hj
    have := mem_take_finRange.mp hj
    simp [u2bits, this]

/-- The search answers the first maximum (R93). -/
theorem bestCandidate_unique {t n ls} {b : Nat} (hl : ls.length = 20) (hb : b < 2 ^ InfoLen.toNat n)
   (h2 : ∀ c, c < 2 ^ InfoLen.toNat n → realMetric t n ls c ≤ realMetric t n ls b)
   (h3 : ∀ c, c < b → realMetric t n ls c < realMetric t n ls b) : bestCandidate t n ls = b := by
  obtain ⟨g1, g2, g3⟩ := bestCandidate_spec t n ls
  simp only [toReal_metric _ _ hl] at g2 g3
  rcases lt_trichotomy (bestCandidate t n ls) b with h | h | h
  · exact absurd (h3 _ h) (not_lt.mpr (g2 _ hb))
  · exact h
  · exact absurd (g3 _ h) (not_lt.mpr (h2 _ g1))

/-- Symbol `k` of the noisy copy takes draws `2k` and `2k + 1` (43_awgn_channel.md R114). -/
theorem noisyCopy_getElem? {x zs draws} (hd : draws.length = 2 * List.length zs) {k : Nat} {z}
    (hz : zs[k]? = some z) : (noisyCopy x zs draws)[k]? = some (addNoise (noiseDeviation x zs) z
      ⟨draws.getD (2*k) QA.zero, draws.getD (2*k+1) QA.zero⟩) := by
  have hk : k < zs.length := (List.getElem?_eq_some_iff.mp hz).1
  have h1 : 2 * k < draws.length := by lia
  have h2 : 2 * k + 1 < draws.length := by lia
  have := pairUp_getElem? draws k (List.getElem?_eq_getElem h1) (List.getElem?_eq_getElem h2)
  rw [noisyCopy, List.getElem?_zipWith, hz, this]
  simp [List.getD_eq_getElem?_getD, h1, h2]

/-- Draws of 0 leave the symbols as they are (R114). -/
theorem noisyCopy_zero {x zs} {draws : List QA} (hl : draws.length = 2 * List.length zs)
    (hd : ∀ d ∈ draws, d = ⟨0, 0⟩) : noisyCopy x zs draws = zs := by
  apply List.ext_getElem?
  intro j
  cases hj : zs[j]? with
  | none => 
    rw [List.getElem?_eq_none_iff] at hj ⊢
    rw [length_noisyCopy hl]; exact hj
  | some z =>
    rw [noisyCopy_getElem? hl hj]
    have hk : j < zs.length := (List.getElem?_eq_some_iff.mp hj).1
    have h1 : 2 * j < draws.length := by lia
    have h2 : 2 * j + 1 < draws.length := by lia
    have e1 : draws.getD (2*j) QA.zero = QA.zero := by
      rw [List.getD_eq_getElem?_getD, List.getElem?_eq_getElem h1]; exact hd _ (List.getElem_mem _)
    have e2 : draws.getD (2*j+1) QA.zero = QA.zero := by
      rw [List.getD_eq_getElem?_getD, List.getElem?_eq_getElem h2]; exact hd _ (List.getElem_mem _)
    rw [e1, e2]
    have hz : ∀ a b : QA, a.add (b.mul QA.zero) = a := by
      intro a b; apply QA.toReal_injective; simp
    simp only [addNoise, hz]

namespace Machine

theorem State.draws?_spec {s : State} {k : Nat} {draws : List QA} (h : s.draws? k = some draws) :
    draws.length = k ∧ ∀ i, (hi : i < draws.length) → s.draw? i = some draws[i] := by
  have h' := allSome_eq_some.mp h
  have hl : draws.length = k := by simpa using (congrArg List.length h').symm
  refine ⟨hl, fun i hi => ?_⟩
  have := congrArg (fun l => l[i]?) h'
  simp [hi, show i < k by lia] at this
  exact this

theorem State.draws?_isSome {s : State} {k : Nat}
    (h : ∀ i, i < k → s.noise[i]? ≠ some .nonFinite) : ∃ draws, s.draws? k = some draws := by
  have hd : ∀ i, i < k → ∃ g, s.draw? i = some g := by
    intro i hi
    unfold State.draw?
    cases hn : s.noise[i]? with
    | none => exact ⟨_, rfl⟩
    | some w =>
      cases w with
      | real v => exact ⟨v, rfl⟩
      | nonFinite => exact absurd hn (h i hi)
  refine ⟨(List.range k).map fun i => (s.draw? i).getD QA.zero, allSome_eq_some.mpr ?_⟩
  simp only [List.map_map]
  apply List.map_congr_left
  intro i hi
  obtain ⟨g, hg⟩ := hd i (by simpa using hi)
  simp [hg]

/-- A draw is the connected answer or a free value (10_state.md R30). -/
theorem State.draw?_cases (s : State) (i : Nat) {g} (h : s.draw? i = some g) :
    s.noise[i]? = some (.real g) ∨
   (s.noise[i]? = none ∧ g = Config.noiseDraw (s.drawn + i)) := by
  unfold State.draw? at h
  cases hn : s.noise[i]? with
  | none => rw [hn] at h; exact .inr ⟨rfl, (Option.some.inj h).symm⟩
  | some w => 
    rw [hn] at h
    cases w with
    | real v => left; cases h; rfl
    | nonFinite => cases h

end Machine
end Sys2Proof
end

