-- ==== Sys2Proof/Tests/Slice0.lean ====
section
/-! SUPPORT. The model's own tests, their expected results taken from spec/95_test_vectors.md or the
examples of the rules, and one witness for each statement with hypotheses: concrete operands that meet
all of them together. `lte20` is the candidate table of 93_implementation_defined.md G1, a named value
of the open parameter used here only. -/

namespace Sys2Proof.Tests

open Sys2Proof Sys2Proof.Machine

/-- G1: row `i` as an integer, bit `j` = column `j`. -/
def lte20 : CodeTable := #v[0x0C03, 0x0E07, 0x1F49, 0x1D0D, 0x1C8F, 0x1DD3, 0x1F55, 0x1D99, 0x1E9B,
  0x1E5D, 0x1EE5, 0x1D67, 0x1FA9, 0x1EAB, 0x14B1, 0x16F3, 0x1A77, 0x1939, 0x00FB, 0x0061]

/-- A block with the table `lte20`, configured for `n`, with the given SNR and connected draws. -/
def block (n : BitVec 4) (snr : Option QA) (draws : List ℚ) (host : List HostMove) : State :=
  ⟨lte20, n, snr, host, draws.map fun q => .real (QA.ofRat q), 0, []⟩

def command (w : Word) (ws : List PayloadWord) : HostMove := .command ⟨w, ws⟩

def reals (qs : List ℚ) : List NumWord := qs.map fun q => .real (QA.ofRat q)

def cxs (ps : List (ℚ × ℚ)) : List (Cx NumWord) :=
  ps.map fun p => ⟨.real (QA.ofRat p.1), .real (QA.ofRat p.2)⟩

/-- The last response of a next state. -/
def answer (o : Host.Outcome State Fault Refusal) : Option Response :=
  match o with
  | .next s => s.responses.getLast?
  | .fault _ | .refused _ => none

/-! Well-formedness: the one check, on each sequence operand. -/

theorem test_ill_formed :
    ¬ WellFormed (.encode (List.replicate 65536 true)) ∧
    ¬ WellFormed (.decode (List.replicate 65536 .nonFinite)) ∧
    ¬ WellFormed (.modulate (List.replicate 65536 true)) ∧
    ¬ WellFormed (.demodulate (List.replicate 65536 ⟨.nonFinite, .nonFinite⟩)) ∧
    ¬ WellFormed (.apply (List.replicate 65536 ⟨.nonFinite, .nonFinite⟩)) := by
  simp only [WellFormed, Instr.len, Config.maxLen, List.length_replicate]
  lia

theorem test_well_formed :
    WellFormed (.config 15) ∧ WellFormed (.setsnr .nonFinite) ∧
    WellFormed (.apply (List.replicate 65535 ⟨.nonFinite, .nonFinite⟩)) := by
  simp only [WellFormed, Instr.len, Config.maxLen, List.length_replicate]
  lia

/-! Decoding of words written out field by field from 30_encoding.md R61 and R67:
`OP ARG RSV LEN`. -/

theorem test_decode_config :
    decode 0b0001_0010_00000000_0000000000000000#32 [] = .ok (.config 2) := by decide

theorem test_decode_encode :
    decode 0b0010_0000_00000000_0000000000000011#32 [.bits 0b101#32] =
      .ok (.encode [true, false, true]) := by decide

theorem test_decode_decode : decode 0b0011_0000_00000000_0000000000000010#32
    [.num (.real ⟨1, 0⟩), .num (.real ⟨0, 1⟩)] = .ok (.decode [.real ⟨1, 0⟩, .real ⟨0, 1⟩]) := rfl

theorem test_decode_modulate :
    decode 0b0100_0000_00000000_0000000000100001#32 [.bits 1#32, .bits 1#32] =
      .ok (.modulate (true :: List.replicate 31 false ++ [true])) := by decide

theorem test_decode_demodulate : decode 0b0101_0000_00000000_0000000000000001#32
    [.num (.real ⟨1, 0⟩), .num (.real ⟨2, 0⟩)] =
      .ok (.demodulate [⟨.real ⟨1, 0⟩, .real ⟨2, 0⟩⟩]) := rfl

theorem test_decode_setsnr : decode 0b0110_0000_00000000_0000000000000001#32
    [.num (.real ⟨10, 0⟩)] = .ok (.setsnr (.real ⟨10, 0⟩)) := rfl

theorem test_decode_apply : decode 0b0111_0000_00000000_0000000000000001#32
    [.num (.real ⟨1, 0⟩), .num (.real ⟨2, 0⟩)] = .ok (.apply [⟨.real ⟨1, 0⟩, .real ⟨2, 0⟩⟩]) := rfl

/-- The illegal words of 95_test_vectors.md 2.1. -/
theorem test_illegal_words : [0x00000000#32, 0x80000000#32, 0xF0000014#32, 0x20010002#32, 0x21000002#32,
    0x12000001#32, 0x60000000#32, 0x60000002#32, 0x61000001#32].all
      (fun w => answer (step (block 2 none [] [command w []])) == some ⟨0x88000000#32, []⟩) = true := by
  decide

/-- A payload too short, too long, or of another element type (log 8). -/
theorem test_payload_mismatch : decode 0x20000002#32 [] = .error .payloadShape ∧
    decode 0x20000002#32 [.bits 0, .bits 0] = .error .payloadShape ∧
    decode 0x60000001#32 [.bits 0] = .error .payloadShape ∧
    decode 0x12000000#32 [.bits 0] = .error .payloadShape := by decide

/-- Words of 95_test_vectors.md 2.1 as the host's table numbers them. -/
theorem test_decode_table_word : decodeTableWord 32 0x1B000000 = some (.config 11) ∧
    decodeTableWord 32 0x20000002 = some (.encode [false, false]) ∧
    decodeTableWord 32 0x60000001 = some (.setsnr (.real ⟨0, 0⟩)) ∧
    decodeTableWord 32 0x60000002 = none := by decide +kernel

/-! `withFetchWord`: the very next step runs the command. -/

theorem test_fetch_config : step (State.reset.withFetchWord 32 0x12000000) =
    .next { State.reset with ncfg := 2, responses := [⟨0x00000000#32, []⟩] } := rfl

theorem test_fetch_decode : step (State.reset.withFetchWord 32 0x30000013) =
    .next { State.reset with responses := [⟨0x89000000#32, []⟩] } := rfl

/-! One step each, from 95_test_vectors.md sections 1 to 3. -/

/-- S9: the sixteen arguments. -/
theorem test_config_all : (List.range 16).filter (fun n => answer (exec (.config (BitVec.ofNat 4 n))
    (block 4 none [] [])) == some ⟨0x00000000#32, []⟩) = [2, 4, 6, 8, 11] := by decide

/-- A failed CONFIG leaves `NCFG` as it was (R81). -/
theorem test_config_failure : exec (.config 10) (block 4 none [] []) =
    .next { block 4 none [] [] with responses := [⟨0x81000000#32, []⟩] } := rfl

/-- 2.2, the pad bits, and 3.1 row 1. -/
theorem test_encode_pad_bits :
    answer (step (block 2 none [] [command 0x20000002#32 [.bits 0xFFFFFFFD#32]])) =
      some ⟨0x00000014#32, [.bits 0x000FFFFF#32]⟩ := by decide

/-- 3.1, N = 11. -/
theorem test_encode_eleven :
    answer (step (block 11 none [] [command 0x2000000B#32 [.bits 0x555#32]])) =
      some ⟨0x00000014#32, [.bits 0x00065B32#32]⟩ := by decide

/-- 3.2, the input L1 at N = 4. -/
theorem test_decode_l1 : answer (exec (.decode (reals [3, -1, 2, 2, -4, 1, 0, 5, -2, 1, 1, -3, 2, 2, -1,
    0, 4, -2, 1, -1])) (block 4 none [] [])) = some ⟨0x00000004#32, [.bits 10#32]⟩ := by
  decide +kernel

/-- 3.2, the tie at N = 2: the lower number wins. -/
theorem test_decode_tie : answer (exec (.decode (reals [1, 1, 0, 0, 1, 1, 0, 0, 1, 0, 0, 1, 0, 1, 0, 1, 1,
    0, 1, 0])) (block 2 none [] [])) = some ⟨0x00000002#32, [.bits 1#32]⟩ := by decide +kernel

/-- 2.4, payload 0x0000_0C00: `sym[5] = (+A, +A)`, the others `(-A, -A)`. -/
theorem test_modulate_pair_five :
    answer (step (block 0 none [] [command 0x40000014#32 [.bits 0x00000C00#32]])) =
      some ⟨0x0000000A#32, List.replicate 10 (.num (.real ⟨0, -1⟩)) ++
        List.replicate 2 (.num (.real ⟨0, 1⟩)) ++ List.replicate 8 (.num (.real ⟨0, -1⟩))⟩ := by
  decide +kernel

/-- S7: 19 bits. -/
theorem test_modulate_nineteen :
    answer (exec (.modulate (List.replicate 19 true)) (block 4 none [] [])) =
      some ⟨0x84000000#32, []⟩ := by decide

/-- 2.4: `(1,2), (3,4), ...` gives 1, 2, 3, ... 20. -/
theorem test_demodulate_order : answer (exec (.demodulate (cxs [(1, 2), (3, 4), (5, 6), (7, 8), (9, 10),
    (11, 12), (13, 14), (15, 16), (17, 18), (19, 20)])) (block 0 none [] [])) =
      some ⟨0x00000014#32, (reals [1, 2, 3, 4, 5, 6, 7, 8, 9, 10, 11, 12, 13, 14, 15, 16, 17, 18, 19,
        20]).map .num⟩ := by decide +kernel

/-- S7: 9 symbols, whatever they hold. -/
theorem test_demodulate_nine :
    answer (exec (.demodulate (List.replicate 9 ⟨.nonFinite, .nonFinite⟩)) (block 4 none [] [])) =
      some ⟨0x85000000#32, []⟩ := by decide

/-- 2.5: SETSNR twice leaves the second value. -/
theorem test_setsnr_replaces : exec (.setsnr (.real (QA.ofRat (-5)))) (block 0 (some (QA.ofRat 10)) [] []) =
    .next { block 0 (some (QA.ofRat (-5))) [] [] with responses := [⟨0x00000000#32, []⟩] } := rfl

/-- 2.5, row 2: SNR 10 dB; which draw goes where. -/
theorem test_apply_ten_decibels : answer (exec (.apply (cxs [(4, 2), (2, 4)]))
    (block 0 (some (QA.ofRat 10)) [1, -1, 1/2, 1/4] [])) =
      some ⟨0x00000002#32, (reals [5, 1, 5/2, 17/4]).map .num⟩ := by decide +kernel

/-- 2.5, row 5: sigma is the square root of 2, that is `2 * A`. -/
theorem test_apply_sqrt_two : answer (exec (.apply (cxs [(2, 0), (0, 2), (-2, 0), (0, -2)]))
    (block 0 (some (QA.ofRat 0)) [1, 1, 1, 1, -1, -1, -1, -1] [])) =
      some ⟨0x00000004#32, [⟨2, 2⟩, ⟨0, 2⟩, ⟨0, 2⟩, ⟨2, 2⟩, ⟨-2, -2⟩, ⟨0, -2⟩, ⟨0, -2⟩,
        ⟨-2, -2⟩].map fun x => .num (.real x)⟩ := by decide +kernel

/-- 2.6: the order of the checks. -/
theorem test_check_order :
    answer (exec (.decode (List.replicate 19 .nonFinite)) (block 0 none [] [])) = some ⟨0x89000000#32, []⟩ ∧
    answer (exec (.apply []) (block 0 none [] [])) = some ⟨0x89000000#32, []⟩ ∧
    answer (step (block 0 none [] [command 0x21000002#32 [.bits 0]])) = some ⟨0x88000000#32, []⟩ ∧
    answer (exec (.encode []) (block 2 none [] [])) = some ⟨0x82000000#32, []⟩ := by decide

/-- S10: 97 successes and 3 failures. -/
theorem test_bler : HostProc.bler ⟨97, 3⟩ = 3 / 100 := by norm_num [HostProc.bler]

/-- S11: where the separator is, and two malformed strings. -/
theorem test_parse : HostProc.parse "-0.5+0.25j".toList = some ⟨⟨-1/2, 0⟩, ⟨1/4, 0⟩⟩ ∧
    HostProc.parse "0.5j".toList = none ∧ HostProc.parse "0.5+0.5".toList = none := by decide +kernel

/-- R128: texts that are no number, and the exponent sign that the rule misreads. -/
theorem test_parse_no_number : ["hello+1j", "e+1j", "1+ej", "1+2ej", "1e-3+2j", "1+-2j"].all
    (fun t => HostProc.parse t.toList == none) = true := by decide +kernel

/-- R127: a negative real, and seven decimals. -/
theorem test_text : HostProc.realText 7 ⟨-5/2, 0⟩ = "-2.5000000".toList := by decide +kernel

/-- R128 and 44_host_composites.md: the class of a malformed string, and R123's order of the checks. -/
theorem test_mode_stops : HostProc.decodingText 2 [['x']] (block 0 none [] []) = .error .malformedText ∧
    HostProc.channelSimulation 18 0 none (fun _ _ => true) (block 0 none [] []) =
      .error (.refusedByHost .iterCount) ∧
    HostProc.codingText 18 [] (block 0 none [] []) = .error (.refusedByHost .unsupportedN) :=
  ⟨rfl, rfl, rfl⟩

/-! Witnesses. -/

theorem witness_DecodeOfEncodeIsIdentity :
    WellFormed (.encode []) ∧ WellFormed (.modulate (List.replicate 65535 true)) := by
  simp only [WellFormed, Instr.len, Config.maxLen, List.length_replicate, List.length_nil]
  lia

theorem witness_EveryWordHasOneMeaning :
    let s := block 2 none [] [command 0x20000002#32 [.bits 1#32], .reset]
    s.host = .command ⟨0x20000002#32, [.bits 1#32]⟩ :: [.reset] ∧
    ∀ op : Opcode, 0x20000002#32 &&& op.mask = op.pattern →
      PayloadFits op ((0x20000002#32 : Word).extractLsb' 0 16).toNat [.bits 1#32] := by
  refine ⟨rfl, fun op h => ?_⟩
  cases op <;> first | exact absurd h (by decide) | exact ⟨[1#32], rfl, by decide⟩

/-- One word for each condition of R70. -/
theorem witness_IllegalWordIsRefused :
    (block 2 none [] [command 0x80000000#32 []]).host = .command ⟨0x80000000#32, []⟩ :: [] ∧
    IllegalWord 0x00000000#32 ∧ IllegalWord 0x80000000#32 ∧ IllegalWord 0x20010002#32 ∧
    IllegalWord 0x21000002#32 ∧ IllegalWord 0x12000001#32 ∧ IllegalWord 0x60000000#32 := by
  unfold IllegalWord
  exact ⟨rfl, by decide, by decide, by decide, by decide, by decide, by decide⟩

theorem witness_StepRunsDecodedCommand :
    let s := block 2 none [] [command 0x20000002#32 [.bits 1#32]]
    s.host = .command ⟨0x20000002#32, [.bits 1#32]⟩ :: [] ∧
    decode 0x20000002#32 [.bits 1#32] = .ok (.encode [true, false]) := by decide

theorem witness_StepTakesReset : (block 2 none [] [.reset]).host = .reset :: [] := rfl

theorem witness_StepWithoutATransaction : (block 2 none [] []).host = [] ∧
    (block 2 none [] [command 0x12000000#32 [.bits 0]]).host =
      .command ⟨0x12000000#32, [.bits 0]⟩ :: [] ∧
    0x12000000#32 &&& Opcode.config.mask = Opcode.config.pattern ∧
    ¬ PayloadFits .config ((0x12000000#32 : Word).extractLsb' 0 16).toNat [.bits 0] :=
  ⟨rfl, rfl, by decide, by simp [PayloadFits]⟩

theorem witness_OnlyResetUnconfigures : ∃ s', step (block 2 (some QA.zero) [] [.reset]) = .next s' ∧
    (block 2 (some QA.zero) [] [.reset]).ncfg ≠ 0 ∧ s'.ncfg = 0 ∧
    (block 2 (some QA.zero) [] [.reset]).snr ≠ none ∧ s'.snr = none :=
  ⟨_, rfl, by decide, rfl, by simp [block], rfl⟩

theorem witness_Config : ((2 : BitVec 4) = 2 ∨ (2 : BitVec 4) = 4) ∧ (11 : BitVec 4) = 11 ∧
    ¬ ((0 : BitVec 4) = 2 ∨ (0 : BitVec 4) = 4 ∨ (0 : BitVec 4) = 6 ∨ (0 : BitVec 4) = 8 ∨
      (0 : BitVec 4) = 11) ∧
    ¬ ((15 : BitVec 4) = 2 ∨ (15 : BitVec 4) = 4 ∨ (15 : BitVec 4) = 6 ∨ (15 : BitVec 4) = 8 ∨
      (15 : BitVec 4) = 11) := by decide

/-- For EncodeMultipliesGeneratorMatrix and EncodeChecksLength, at both ends of the lengths and with
`LEN = N - 1`, `LEN = N + 1` and 0. -/
theorem witness_Encode : (block 2 none [] []).ncfg.toNat = InfoLen.n2.toNat ∧
    (block 11 none [] []).ncfg.toNat = InfoLen.n11.toNat ∧
    [true, false].length = InfoLen.n2.toNat ∧ (List.replicate 11 true).length = InfoLen.n11.toNat ∧
    ([] : List Bool).length ≠ InfoLen.n2.toNat ∧ [true].length ≠ InfoLen.n2.toNat ∧
    [true, true, true].length ≠ InfoLen.n2.toNat := by decide

theorem witness_EncoderObeysItsFiveLaws : [true, false].length = InfoLen.n2.toNat ∧
    [true, true].length = InfoLen.n2.toNat ∧ (0 : Fin 13).val < InfoLen.n2.toNat ∧
    (10 : Fin 13).val < InfoLen.n11.toNat ∧ InfoLen.n2.toNat < InfoLen.n4.toNat := by decide

theorem witness_EncoderHasTwoWordForms : 0 < 2 ^ InfoLen.n2.toNat ∧ 2047 < 2 ^ InfoLen.n11.toNat := by
  decide

theorem witness_DecodeReturnsFirstMaximum : (block 2 none [] []).ncfg.toNat = InfoLen.n2.toNat ∧
    (List.replicate 20 QA.constA).length = 20 := by decide

theorem witness_DecodeChecksLength : (block 11 none [] []).ncfg.toNat = InfoLen.n11.toNat ∧
    (List.replicate 19 NumWord.nonFinite).length ≠ 20 ∧
    (List.replicate 21 NumWord.nonFinite).length ≠ 20 ∧
    (List.replicate 20 QA.constA).length = 20 := by decide

theorem witness_DecodeWithoutPositiveEvidenceIsZero :
    (block 2 none [] []).ncfg.toNat = InfoLen.n2.toNat ∧
    (QA.constA.neg :: List.replicate 19 QA.zero).length = 20 ∧
    ∀ x ∈ QA.constA.neg :: List.replicate 19 QA.zero, x.toReal ≤ 0 := by
  refine ⟨by decide, by simp, ?_⟩
  intro x hx
  rcases List.mem_cons.mp hx with rfl | h
  · have := one_div_sqrt_two_pos
    rw [QA.toReal_neg, QA.toReal_constA]; linarith
  · rw [List.eq_of_mem_replicate h, QA.toReal_zero]

theorem witness_DecodeIgnoresPositiveScale : (block 2 none [] []).ncfg.toNat = InfoLen.n2.toNat ∧
    (List.replicate 20 QA.constA).length = 20 ∧ 0 < (QA.ofRat 1000).toReal := by
  refine ⟨by decide, by simp, by norm_num⟩

theorem witness_TransmittedCandidateIsMaximal : (block 2 none [] []).ncfg.toNat = InfoLen.n2.toNat ∧
    1 < 2 ^ InfoLen.n2.toNat ∧ 3 < 2 ^ InfoLen.n2.toNat ∧ 0 < QA.constA.toReal :=
  ⟨by decide, by decide, by decide, by rw [QA.toReal_constA]; exact one_div_sqrt_two_pos⟩

/-- `lte20` meets K3 at N = 4 (G1). -/
theorem lte20_K3At : lte20.K3At .n4 := by
  have key : ∀ c : Fin 16, ∀ d : Fin 16, encodeVector lte20 .n4 (u2bits 4 c) =
      encodeVector lte20 .n4 (u2bits 4 d) → c = d := by decide +kernel
  intro u v hu hv h
  have hu' : u.length = 4 := hu
  have hv' : v.length = 4 := hv
  have e : ∀ w : List Bool, w.length = 4 → u2bits 4 (bits2u w) = w := by
    intro w hw
    have := u2bits_bits2u w
    rwa [hw] at this
  have lt : ∀ w : List Bool, w.length = 4 → bits2u w < 16 := by
    intro w hw
    have := bits2u_lt w
    rwa [hw] at this
  have := key ⟨bits2u u, lt u hu'⟩ ⟨bits2u v, lt v hv'⟩ (by simpa [e u hu', e v hv'] using h)
  rw [← e u hu', ← e v hv', Fin.mk.inj_iff.mp this]

theorem witness_CodedVectorsDecodeBack : [true, false, true, true].length = InfoLen.n4.toNat ∧
    (block 0 none [] []).table.K3At .n4 := ⟨rfl, lte20_K3At⟩

/-- For the statements about MODULATE and DEMODULATE, at the accepted length and beside it. -/
theorem witness_Mapper : (List.replicate 20 true).length = 20 ∧ (List.replicate 19 true).length ≠ 20 ∧
    (List.replicate 21 true).length ≠ 20 ∧
    (List.replicate 10 (Cx.mk QA.constA QA.zero)).length = 10 ∧
    (List.replicate 10 (Cx.mk QA.constA QA.zero))[9]? = some ⟨QA.constA, QA.zero⟩ ∧
    (List.replicate 9 (Cx.mk NumWord.nonFinite .nonFinite)).length ≠ 10 ∧
    (List.replicate 11 (Cx.mk NumWord.nonFinite .nonFinite)).length ≠ 10 := by decide

/-- The first draw is the connected source's, the second a free one. -/
theorem witness_ApplyAddsScaledDraws : let s := block 0 (some QA.zero) [1] []
    s.snr = some QA.zero ∧ [Cx.mk QA.constA QA.zero] ≠ [] ∧ [Cx.mk QA.constA QA.zero].length ≤ 65535 ∧
    (∀ i, i < 2 * [Cx.mk QA.constA QA.zero].length → s.noise[i]? ≠ some .nonFinite) := by
  refine ⟨rfl, by simp, by simp, ?_⟩
  intro i hi
  have : i = 0 ∨ i = 1 := by simp at hi; lia
  rcases this with rfl | rfl <;> simp [block]

theorem witness_CalibrationIsExactInNum :
    (QA.ofRat 1).toReal =
      Real.sqrt (realPower [Cx.mk (QA.ofRat 1) (QA.ofRat 1)] / (10 : ℝ) ^ (0 : ℤ) / 2) := by
  norm_num [realPower]

theorem witness_ApplyOnZeroPowerCopiesInput : let s := block 0 (some QA.constA) [1, 2] []
    s.snr = some QA.constA ∧ 0 < 1 ∧ 1 ≤ 65535 ∧
    (∀ i, i < 2 * 1 → s.noise[i]? ≠ some .nonFinite) := by
  refine ⟨rfl, by simp, by simp, ?_⟩
  intro i hi
  have : i = 0 ∨ i = 1 := by lia
  rcases this with rfl | rfl <;> simp [block]

theorem witness_ApplyRefusesEmptyInput : (block 0 (some QA.zero) [] []).snr = some QA.zero := rfl

/-- Each clause of the order of checks. -/
theorem witness_ChecksAreMadeInOrder : NcfgLegal (block 0 none [] []).ncfg ∧
    NcfgLegal (block 2 none [] []).ncfg ∧
    (block 0 none [] [command 0x21000002#32 [.bits 0]]).host = .command ⟨0x21000002#32, [.bits 0]⟩ :: [] ∧
    IllegalWord 0x21000002#32 ∧
    decode 0x20000003#32 [.bits 1#32] = .ok (.encode [true, false, false]) ∧
    Unconfigured (.encode [true, false, false]) (block 0 none [] []) ∧
    ¬ Unconfigured (.encode [true, false, false]) (block 2 none [] []) ∧
    OwnCheckFails (.encode [true, false, false]) (block 2 none [] []) 2 ∧
    ¬ Unconfigured (.encode [true, false]) (block 2 none [] []) ∧
    (∀ code, ¬ OwnCheckFails (.encode [true, false]) (block 2 none [] []) code) ∧
    (∃ s', step (block 2 none [] [command 0x20000002#32 [.bits 1#32]]) = .next s') := by
  refine ⟨.inl rfl, .inr (.inl rfl), rfl, ?_, by decide, rfl, ?_, ?_, ?_, ?_, _, rfl⟩
  · unfold IllegalWord; decide
  · exact fun h => absurd (show (2 : BitVec 4) = 0 from h) (by decide)
  · exact ⟨by decide, rfl⟩
  · exact fun h => absurd (show (2 : BitVec 4) = 0 from h) (by decide)
  · exact fun code h => absurd h.1 (by decide)

/-- A failing command, for FailureLeavesStateAlone and NothingIsStickyAfterAFailure. -/
theorem witness_Failure :
    let s := block 0 none [] [command 0x20000000#32 [], command 0x12000000#32 []]
    ∃ s1, s.host = .command ⟨0x20000000#32, []⟩ :: [command 0x12000000#32 []] ∧ step s = .next s1 ∧
      s1.responses = s.responses ++ [⟨0x89000000#32, []⟩] ∧ (0x89000000#32).getLsbD 31 = true ∧
      ∃ t, step { s with host := [command 0x12000000#32 []] } = .next t :=
  ⟨_, rfl, rfl, rfl, by decide, _, rfl⟩

theorem witness_OperationsRaiseOnlyTheirCauses : let s := block 0 none [] []
    ∃ s', exec (.encode []) s = .next s' ∧ s'.responses = s.responses ++ [⟨0x89000000#32, []⟩] ∧
      (0x89000000#32).getLsbD 31 = true := ⟨_, rfl, rfl, by decide⟩

/-- For OperationsWriteOnlyTheirRegister and OnlyEncodeAndDecodeReachTheTable. -/
theorem witness_Frame : (∃ s', exec (.modulate (List.replicate 20 true)) (block 2 none [] []) = .next s') ∧
    (Instr.modulate (List.replicate 20 true)).opcode ≠ .encode ∧
    (Instr.modulate (List.replicate 20 true)).opcode ≠ .decode ∧
    (∃ s', step (block 2 none [] [command 0x12000000#32 []]) = .next s') :=
  ⟨⟨_, rfl⟩, by decide, by decide, ⟨_, rfl⟩⟩

theorem witness_EveryStepKeepsTheInvariant : (block 2 none [] [.reset]).Inv ∧
    ∃ s', step (block 2 none [] [.reset]) = .next s' := by
  refine ⟨⟨.inr (.inl rfl), ?_⟩, _, rfl⟩
  intro r hr
  cases hr

theorem witness_RunsAnswerEachCommandOnce :
    let cs : List Command := [⟨0x12000000#32, []⟩, ⟨0x00000000#32, []⟩]
    (block 0 none [] (cs.map .command ++ [.reset])).host = cs.map .command ++ [.reset] ∧
    ∃ s', core.run cs.length (block 0 none [] (cs.map .command ++ [.reset])) = .next s' :=
  ⟨rfl, _, rfl⟩

/-- Each clause. -/
theorem witness_NonFiniteValuesAreRefused : (block 2 none [] []).ncfg.toNat = InfoLen.n2.toNat ∧
    (List.replicate 20 NumWord.nonFinite).length = 20 ∧
    .nonFinite ∈ List.replicate 20 NumWord.nonFinite ∧
    (List.replicate 10 (Cx.mk (NumWord.real QA.zero) .nonFinite)).length = 10 ∧
    Cx.mk (NumWord.real QA.zero) .nonFinite ∈
      List.replicate 10 (Cx.mk (NumWord.real QA.zero) .nonFinite) ∧
    (block 0 (some QA.zero) [] []).snr = some QA.zero ∧
    { block 0 (some QA.zero) [] [] with noise := [.real QA.zero, .nonFinite] }.noise[1]? =
      some .nonFinite ∧ 1 < 2 * [Cx.mk QA.zero QA.zero].length := by
  refine ⟨by decide, by decide, by simp, by decide, by simp, rfl, rfl, by simp⟩

theorem witness_SimulateRefusesNonPositiveCount : (0 : Int) ≤ 0 ∧ (-1 : Int) ≤ 0 := by decide

theorem witness_SimulationCountsEveryTrial : (0 : Int) < 1 ∧ .nonFinite ∉ (block 0 none [1] []).noise := by
  simp [block]

theorem witness_NoiselessSimulationNeverFails :
    let s := block 0 none (List.replicate 20 0) []
    0 < 1 ∧ s.table.K3At .n4 ∧ ∀ i, i < 20 * 1 → s.noise[i]? = some (.real ⟨0, 0⟩) := by
  refine ⟨by decide, lte20_K3At, ?_⟩
  intro i hi
  have hi' : i < 20 := by lia
  simp only [block, List.map_replicate]
  rw [List.getElem?_replicate, if_pos hi']
  rfl

theorem witness_ParseNeedsMarkAndSign : ['1', '+', '2'].getLast? ≠ some 'j' ∧
    (∀ d ∈ ['5', 'j'], d ≠ '+' ∧ d ≠ '-') := by simp

/-- One trial of the mode, at 0 dB and with draws of 0, and the hypotheses of the second clause. -/
theorem witness_SimulationModeReportsBler :
    (match HostProc.channelSimulation 2 1 (some (.real QA.zero)) (fun _ _ => true)
        (block 0 none (List.replicate 20 0) []) with
      | .ok (r, _) => r == ⟨1, 0, 0⟩
      | .error _   => false) = true ∧
    (0 : Int) < 1 ∧ .nonFinite ∉ (block 0 none [1] []).noise :=
  ⟨by decide +kernel, by decide, by simp [block]⟩

/-- An `N` in and outside the range of `ARG`, and the lengths beside the accepted ones. -/
theorem witness_HostModesFailWithTheirCause :
    ¬ ((18 : Int) = 2 ∨ (18 : Int) = 4 ∨ (18 : Int) = 6 ∨ (18 : Int) = 8 ∨ (18 : Int) = 11) ∧
    ¬ ((-2 : Int) = 2 ∨ (-2 : Int) = 4 ∨ (-2 : Int) = 6 ∨ (-2 : Int) = 8 ∨ (-2 : Int) = 11) ∧
    ¬ ((3 : Int) = 2 ∨ (3 : Int) = 4 ∨ (3 : Int) = 6 ∨ (3 : Int) = 8 ∨ (3 : Int) = 11) ∧
    [true].length ≠ InfoLen.n2.toNat ∧ [true, true, true].length ≠ InfoLen.n2.toNat ∧
    (∀ t ∈ List.replicate 9 ['1', '+', '1', 'j'], HostProc.parse t ≠ none) ∧
    (List.replicate 9 ['1', '+', '1', 'j']).length ≠ 10 ∧
    (∀ t ∈ List.replicate 11 ['1', '+', '1', 'j'], HostProc.parse t ≠ none) ∧
    (List.replicate 11 ['1', '+', '1', 'j']).length ≠ 10 := by decide +kernel

theorem witness_MalformedStringEndsDecoding : ['x'] ∈ [['1', '+', '1', 'j'], ['x']] ∧
    HostProc.parse ['x'] = none := by decide +kernel

theorem witness_TextsOfCodedVectorDecodeBack : [true, false, true, true].length = InfoLen.n4.toNat ∧
    (block 0 none [] []).table.K3At .n4 := ⟨rfl, lte20_K3At⟩

/-- Both separators, with a real part that has its own sign. -/
theorem witness_ParseSplitsAtTheFirstInnerSign : (∀ d ∈ ['1'], d ≠ '+' ∧ d ≠ '-') ∧
    ('+' = '+' ∨ '+' = '-') ∧ ('-' = '+' ∨ '-' = '-') ∧
    HostProc.number? ['+', '1'] = some ⟨1, 0⟩ ∧ HostProc.number? ['-', '1'] = some ⟨-1, 0⟩ :=
  ⟨by simp, .inl rfl, .inr rfl, by decide +kernel, by decide +kernel⟩

theorem witness_ParseRefusesForeignCharacters : 'h' ∈ ['1', '+', 'h', 'j'].dropLast ∧
    'h'.isDigit = false ∧ 'h' ∉ ['.', '+', '-', 'e', 'E'] := by decide +kernel

end Sys2Proof.Tests
end

/-! The registers across one step (10_state.md R33): what an operation and a step can leave in `NCFG`
and `SNR`. -/

namespace Sys2Proof.Machine

/-- A supported length is not the pattern of `NONE`. -/
theorem ne_zero_of_ofBits?_eq_some {b : BitVec 4} {n : InfoLen} (h : InfoLen.ofBits? b = some n) :
    b ≠ 0 := by
  rintro rfl
  cases h

/-- The two register writers are CONFIG and SETSNR (10_state.md R26, R27). -/
theorem exec_next_registers {i : Instr} {s s' : State} (h : exec i s = .next s') :
    (s'.ncfg = s.ncfg ∧ s'.snr = s.snr) ∨
    (∃ n m, i = .config n ∧ InfoLen.ofBits? n = some m ∧ s'.ncfg = n ∧ s'.snr = s.snr) ∨
    (∃ v, i = .setsnr (.real v) ∧ s'.ncfg = s.ncfg ∧ s'.snr = some v) := by
  obtain ⟨_, -, rfl⟩ | ⟨n, m, rfl, hn, rfl⟩ | ⟨_, _, -, -, -, rfl⟩ | ⟨_, _, _, -, -, -, -, rfl⟩ |
    ⟨_, -, -, rfl⟩ | ⟨_, _, -, -, -, rfl⟩ | ⟨v, rfl, rfl⟩ | ⟨_, _, _, _, -, -, -, -, -, rfl⟩ :=
    exec_next_cases h
  case inr.inl => exact .inr (.inl ⟨n, m, rfl, hn, rfl, rfl⟩)
  case inr.inr.inr.inr.inr.inr.inl => exact .inr (.inr ⟨v, rfl, rfl, rfl⟩)
  all_goals exact .inl ⟨rfl, rfl⟩

/-- No operation brings a register back to `NONE`. -/
theorem exec_keeps_configured {i : Instr} {s s' : State} (h : exec i s = .next s') :
    (s.ncfg ≠ 0 → s'.ncfg ≠ 0) ∧ (s.snr ≠ none → s'.snr ≠ none) := by
  obtain ⟨hn, hx⟩ | ⟨n, m, -, hm, hn, hx⟩ | ⟨v, -, hn, hx⟩ := exec_next_registers h
  · simp [hn, hx]
  · have hne : s'.ncfg ≠ 0 := hn ▸ ne_zero_of_ofBits?_eq_some hm
    exact ⟨fun _ => hne, by simp [hx]⟩
  · simp [hn, hx]

/-- A step that takes no reset keeps a configured register configured. -/
theorem step_reset_or_keeps_configured {s s' : State} (h : step s = .next s') :
    (∃ rest, s.host = .reset :: rest) ∨
    ((s.ncfg ≠ 0 → s'.ncfg ≠ 0) ∧ (s.snr ≠ none → s'.snr ≠ none)) := by
  obtain ⟨-, rfl⟩ | ⟨rest, hreset, -⟩ | ⟨c, rest, -, ⟨-, rfl⟩ | ⟨i, -, hexec⟩⟩ := step_next_cases h
  · exact .inr ⟨id, id⟩
  · exact .inl ⟨rest, hreset⟩
  · exact .inr ⟨id, id⟩
  · exact .inr (by simpa using exec_keeps_configured hexec)

/-- Settles O9: the reset state by its definition, and each step by its cases. -/
theorem onlyResetUnconfigures : Obligations.OnlyResetUnconfigures := by
  refine ⟨⟨rfl, rfl, rfl⟩, fun s s' h => ?_⟩
  obtain hreset | ⟨hncfg, hsnr⟩ := step_reset_or_keeps_configured h
  · exact ⟨fun _ _ => hreset, fun _ _ => hreset⟩
  · exact ⟨fun hne h0 => absurd h0 (hncfg hne), fun hne h0 => absurd h0 (hsnr hne)⟩

end Sys2Proof.Machine

/-! The Code Table across operations and steps (20_memory.md R42): nothing writes it, and only ENCODE
and DECODE read it. -/

namespace Sys2Proof.Machine

/-- No operation writes the table. -/
theorem exec_keeps_table {i : Instr} {s s' : State} (h : exec i s = .next s') :
    s'.table = s.table := by
  obtain ⟨_, -, rfl⟩ | ⟨_, _, -, -, rfl⟩ | ⟨_, _, -, -, -, rfl⟩ | ⟨_, _, _, -, -, -, -, rfl⟩ |
    ⟨_, -, -, rfl⟩ | ⟨_, _, -, -, -, rfl⟩ | ⟨_, -, rfl⟩ | ⟨_, _, _, _, -, -, -, -, -, rfl⟩ :=
    exec_next_cases h
  all_goals rfl

/-- No step writes the table. -/
theorem step_keeps_table {s s' : State} (h : step s = .next s') : s'.table = s.table := by
  obtain ⟨-, rfl⟩ | ⟨_, -, rfl⟩ | ⟨_, rest, -, ⟨-, rfl⟩ | ⟨_, -, hexec⟩⟩ := step_next_cases h
  · rfl
  · rfl
  · rfl
  · exact (exec_keeps_table hexec).trans (State.setHost_table s rest)

/-- The same state over another table. -/
def State.withTable (s : State) (t : CodeTable) : State := { s with table := t }

@[simp] theorem State.withTable_snr (s : State) (t : CodeTable) : (s.withTable t).snr = s.snr := rfl

@[simp] theorem State.withTable_draws? (s : State) (t : CodeTable) (k : Nat) :
    (s.withTable t).draws? k = s.draws? k := rfl

/-- Changes the next state of an outcome and keeps a stop as it is. -/
def mapNext (f : State → State) :
    Host.Outcome State Fault Refusal → Host.Outcome State Fault Refusal
  | .next s    => .next (f s)
  | .fault r   => .fault r
  | .refused r => .refused r

/-- An operation other than ENCODE and DECODE takes the same branch over every table, stops included,
and its updates leave the table it finds. -/
theorem exec_withTable {i : Instr} (he : i.opcode ≠ .encode) (hd : i.opcode ≠ .decode) (s : State)
    (t : CodeTable) : exec i (s.withTable t) = mapNext (·.withTable t) (exec i s) := by
  cases i with
  | encode => exact absurd rfl he
  | decode => exact absurd rfl hd
  | config n => simp only [exec, execConfig]; split <;> rfl
  | modulate cw => simp only [exec, execModulate]; split <;> rfl
  | demodulate sym =>
    simp only [exec, execDemodulate]
    split
    · rfl
    · split <;> rfl
  | setsnr x => simp only [exec, execSetsnr]; split <;> rfl
  | apply sym =>
    simp only [exec, execApply, State.withTable_snr, State.withTable_draws?]
    split
    · rfl
    · split
      · rfl
      · split <;> rfl

/-- The table whose every row is `row`. -/
def uniformTable (row : BitVec 13) : CodeTable := Vector.replicate 20 row

/-- A block configured for `N = 2` over the table whose rows are `row`. -/
def blockWithRows (row : BitVec 13) : State :=
  { State.reset with table := uniformTable row, ncfg := 2 }

/-- Twenty reals 1, which favour a codeword of ones. -/
def unitLlr : List QA := List.replicate 20 (QA.ofRat 1)

/-- ENCODE of `10` answers column 0 of the table. -/
theorem encode_reads_table :
    encodeVector (uniformTable 0) .n2 [true, false] = List.replicate 20 false ∧
    encodeVector (uniformTable 1) .n2 [true, false] = List.replicate 20 true := by decide

/-- Over the zero table all metrics are 0 and candidate 0 stays; over the table with ones in column 0
candidate 1 has the greater metric. -/
theorem decode_reads_table :
    bestCandidate (uniformTable 0) .n2 unitLlr = 0 ∧
    bestCandidate (uniformTable 1) .n2 unitLlr = 1 := by decide +kernel

theorem exec_encode_blockWithRows (row : BitVec 13) :
    exec (.encode [true, false]) (blockWithRows row) = .next (respond 20
      (bitsPayload (encodeVector (uniformTable row) .n2 [true, false])) (blockWithRows row)) := rfl

theorem exec_decode_blockWithRows (row : BitVec 13) :
    exec (.decode (unitLlr.map .real)) (blockWithRows row) = .next (respond 2
      (bitsPayload (u2bits 2 (bestCandidate (uniformTable row) .n2 unitLlr))) (blockWithRows row)) := rfl

/-- Settles O38: the frame of a step, the branches of the five operations over another table, and for
ENCODE and DECODE a block over two uniform tables. -/
theorem onlyEncodeAndDecodeReachTheTable : Obligations.OnlyEncodeAndDecodeReachTheTable := by
  refine ⟨fun _ _ => step_keeps_table, ?_, ?_⟩
  · intro i s s' t he hd h
    calc exec i (s.withTable t) = mapNext (·.withTable t) (exec i s) := exec_withTable he hd s t
      _ = .next (s'.withTable t) := by rw [h]; rfl
  · rintro op (rfl | rfl)
    · refine ⟨_, _, _, _, uniformTable 1, rfl, exec_encode_blockWithRows 0,
        exec_encode_blockWithRows 1, ?_⟩
      rw [respond_responses, respond_responses, encode_reads_table.1, encode_reads_table.2]
      decide
    · refine ⟨_, _, _, _, uniformTable 1, rfl, exec_decode_blockWithRows 0,
        exec_decode_blockWithRows 1, ?_⟩
      rw [respond_responses, respond_responses, decode_reads_table.1, decode_reads_table.2]
      decide

end Sys2Proof.Machine

/-! The meaning of a command word (30_encoding.md R69, R70): the word alone selects a row of the opcode
table or none, and the step follows that choice. -/

namespace Sys2Proof

/-- A selected row reads the payload its word announces. -/
theorem exists_decode_of_payloadFits {op : Opcode} {w : Word} {ws : List PayloadWord}
    (hrow : selectRow w = .ok op) (hfits : PayloadFits op (w.extractLsb' 0 16).toNat ws) :
    ∃ i, i.opcode = op ∧ decode w ws = .ok i := by
  obtain ⟨i, hread⟩ := (payloadFits_iff hrow).mp hfits
  exact ⟨i, (readPayload_spec hread).1, by rw [decode_of_selectRow hrow, hread]⟩

/-- A word matches the row it selects and no other. -/
theorem eq_of_row_matches {op op' : Opcode} {w : Word} (hrow : selectRow w = .ok op)
    (hmatch : w &&& op'.mask = op'.pattern) : op' = op := by
  have hrow' : selectRow w = .ok op' := (row_matches_iff w op').mp hmatch
  exact Except.ok.inj (hrow'.symm.trans hrow)

/-- A word that selects no row matches none. -/
theorem row_mismatch_of_selectRow_error {w : Word} {e : DecodeError} (hrow : selectRow w = .error e)
    (op : Opcode) : w &&& op.mask ≠ op.pattern := by
  rw [ne_eq, row_matches_iff, hrow]
  exact nofun

namespace Machine

/-- A step whose next move is a command takes the move and runs the command. -/
theorem step_command {s : State} {c : Command} {rest : List HostMove}
    (hhost : s.host = .command c :: rest) : step s = runCommand c (s.setHost rest) := by
  rw [step, hhost]

/-- A decoded command is the one that runs. -/
theorem runCommand_of_decode {w : Word} {ws : List PayloadWord} {i : Instr}
    (hdec : decode w ws = .ok i) (s : State) : runCommand ⟨w, ws⟩ s = exec i s := by
  rw [runCommand, hdec]

/-- A word that selects no row is answered ILLEGAL_CMD, its response word written out, and the step
takes only the move beside that. -/
theorem step_of_selectRow_error {s : State} {w : Word} {ws : List PayloadWord}
    {rest : List HostMove} {e : DecodeError} (hhost : s.host = .command ⟨w, ws⟩ :: rest)
    (hrow : selectRow w = .error e) :
    step s = .next { s with host := rest, responses := s.responses ++ [⟨0x88000000#32, []⟩] } :=
  calc step s = runCommand ⟨w, ws⟩ (s.setHost rest) := step_command hhost
    _ = .next (raise .illegalCmd (s.setHost rest)) :=
      runCommand_of_error hrow (selectRow_ne_payloadShape hrow)
    _ = _ := rfl

/-- Settles O4: the five conditions are the words that select no row. -/
theorem illegalWordIsRefused : Obligations.IllegalWordIsRefused := by
  intro s w ws rest hhost hillegal
  obtain ⟨e, hrow⟩ := (illegalWord_iff w).mp hillegal
  exact step_of_selectRow_error hhost hrow

/-- Settles O3: by the row the word selects, if it selects one. -/
theorem everyWordHasOneMeaning : Obligations.EveryWordHasOneMeaning := by
  intro s w ws rest hhost hfits
  cases hrow : selectRow w with
  | ok op =>
    have hmatch : w &&& op.mask = op.pattern := (row_matches_iff w op).mpr hrow
    obtain ⟨i, hop, hdec⟩ := exists_decode_of_payloadFits hrow (hfits op hmatch)
    have hstep : step s = exec i (s.setHost rest) :=
      (step_command hhost).trans (runCommand_of_decode hdec _)
    exact .inl ⟨op, i, hmatch, fun _ => eq_of_row_matches hrow, hop, hdec, hstep⟩
  | error e =>
    exact .inr ⟨row_mismatch_of_selectRow_error hrow, step_of_selectRow_error hhost hrow⟩

end Machine
end Sys2Proof

/-! The block encoder as a linear map over GF(2) (40_block_encoder.md R84 to R86). A codeword bit is
read as one XOR over all 13 columns, in which `N` no longer stands; the laws of R85 are facts about
that sum, and the word forms of R86 are its columns and its rows as integers. -/

namespace Sys2Proof

/-- Equal-length vectors are XORed position by position. -/
theorem getD_zipWith_xor {u v : List Bool} (h : u.length = v.length) (k : Nat) :
    ((List.zipWith xor u v)[k]?).getD false = xor ((u[k]?).getD false) ((v[k]?).getD false) := by
  by_cases hk : k < u.length
  · simp [hk, h ▸ hk]
  · have hv : ¬ k < v.length := h ▸ hk
    simp [hk, hv]

/-- A position holds a 1 when its read, 0 beyond the end, gives 1. -/
theorem beq_some_true_eq_getD : ∀ o : Option Bool, (o == some true) = o.getD false := by decide

/-- Zeros after a vector do not show in a read that gives 0 beyond the end. -/
theorem getD_append_replicate_false (v : List Bool) (m k : Nat) :
    ((v ++ List.replicate m false)[k]?).getD false = (v[k]?).getD false := by
  by_cases hk : k < v.length
  · rw [List.getElem?_append_left hk]
  · have hle : v.length ≤ k := not_lt.mp hk
    rw [List.getElem?_append_right hle, List.getElem?_eq_none hle, List.getElem?_replicate]
    split <;> rfl

/-- Bit `k` of a candidate's vector, beyond the end too (41_ml_decoder.md R94). -/
theorem getD_u2bits (n c k : Nat) :
    ((u2bits n c)[k]?).getD false = (decide (k < n) && c.testBit k) := by
  by_cases hk : k < n <;> simp [u2bits, hk]

/-- A codeword bit is one XOR over all 13 columns: past the vector's end every term is 0. -/
theorem codewordBit_eq_xorAll_columns (t : CodeTable) {n : InfoLen} {info : List Bool}
    (h : info.length = n.toNat) (i : Fin 20) : codewordBit t n info i =
      xorAll ((List.finRange 13).map fun j => (info[j.val]?).getD false && tblRead t i j) := by
  have hdrop : xorAll (((List.finRange 13).drop n.toNat).map fun j =>
      (info[j.val]?).getD false && tblRead t i j) = false := by
    refine xorAll_eq_false _ _ fun j hj => ?_
    obtain ⟨k, hk, rfl⟩ := List.mem_iff_getElem.mp hj
    simp [h]
  conv_rhs => rw [← List.take_append_drop n.toNat (List.finRange 13), List.map_append, xorAll_append]
  rw [codewordBit_eq t n info h, hdrop, Bool.xor_false]

/-- A codeword is known by its 20 bits. -/
theorem encodeVector_eq_of_bits {t : CodeTable} {n : InfoLen} {v cw : List Bool}
    (hlen : cw.length = 20) (hbit : ∀ i : Fin 20, cw[i.val]? = some (codewordBit t n v i)) :
    encodeVector t n v = cw := by
  apply List.ext_getElem
  · simp [hlen]
  · intro k _ hk
    have hk20 : k < 20 := hlen ▸ hk
    rw [encodeVector_getElem t n v k hk20]
    exact ((List.getElem_eq_iff hk).mpr (hbit ⟨k, hk20⟩)).symm

/-- R85: the zero vector gives the zero codeword. -/
theorem encodeVector_replicate_false (t : CodeTable) (n : InfoLen) :
    encodeVector t n (List.replicate n.toNat false) = List.replicate 20 false := by
  refine encodeVector_eq_of_bits (by simp) fun i => ?_
  have hzero : codewordBit t n (List.replicate n.toNat false) i = false := by
    rw [codewordBit_eq_xorAll_columns t (by simp)]
    refine xorAll_eq_false _ _ fun j _ => ?_
    simp
  rw [hzero, List.getElem?_replicate, if_pos i.isLt]

/-- A codeword bit of `u XOR v` is the XOR of the codeword bits. -/
theorem codewordBit_zipWith_xor (t : CodeTable) {n : InfoLen} {u v : List Bool}
    (hu : u.length = n.toNat) (hv : v.length = n.toNat) (i : Fin 20) :
    codewordBit t n (List.zipWith xor u v) i = xor (codewordBit t n u i) (codewordBit t n v i) := by
  have huv : (List.zipWith xor u v).length = n.toNat := by simp [hu, hv]
  rw [codewordBit_eq_xorAll_columns t huv, codewordBit_eq_xorAll_columns t hu,
    codewordBit_eq_xorAll_columns t hv, ← xorAll_map_xor]
  simp only [getD_zipWith_xor (hu.trans hv.symm), Bool.and_xor_distrib_right]

/-- R85: the codeword of `u XOR v` is the XOR of the codewords. -/
theorem encodeVector_zipWith_xor (t : CodeTable) {n : InfoLen} {u v : List Bool}
    (hu : u.length = n.toNat) (hv : v.length = n.toNat) :
    encodeVector t n (List.zipWith xor u v) =
      List.zipWith xor (encodeVector t n u) (encodeVector t n v) := by
  refine encodeVector_eq_of_bits (by simp) fun i => ?_
  rw [codewordBit_zipWith_xor t hu hv]
  simp [encodeVector]

/-- R85: a codeword is the XOR of the columns its vector selects. -/
theorem encodeVector_eq_foldl_column (t : CodeTable) {n : InfoLen} {v : List Bool}
    (hv : v.length = n.toNat) : encodeVector t n v =
      ((List.finRange 13).filter fun j : Fin 13 => v[j.val]? == some true).foldl
        (fun acc j => List.zipWith xor acc (t.column j)) (List.replicate 20 false) := by
  obtain ⟨hlen, hbit⟩ := foldl_column (t := t)
    ((List.finRange 13).filter fun j : Fin 13 => v[j.val]? == some true)
    (List.replicate 20 false) (by simp)
  refine encodeVector_eq_of_bits hlen fun i => ?_
  rw [hbit i, xorAll_filter, codewordBit_eq_xorAll_columns t hv]
  simp only [List.getElem_replicate, Bool.false_xor, beq_some_true_eq_getD]

/-- Bit `k` of the unit vector `j` tells whether `k` is `j`. -/
theorem getD_unit {m : Nat} {j : Fin 13} (hj : j.val < m) (k : Fin 13) :
    (((List.range m).map fun l => l == j.val)[k.val]?).getD false = (k == j) := by
  by_cases hk : k.val < m
  · simp [hk, Fin.ext_iff, Bool.beq_eq_decide_eq]
  · have hne : k ≠ j := fun h => hk (h ▸ hj)
    simp [hk, hne]

/-- R85: the unit vector `j` gives column `j`. -/
theorem encodeVector_unit (t : CodeTable) {n : InfoLen} {j : Fin 13} (hj : j.val < n.toNat) :
    encodeVector t n ((List.range n.toNat).map fun k => k == j.val) = t.column j := by
  have honly : (List.finRange 13).filter (· == j) = [j] := by
    rw [List.filter_beq, List.count_eq_one_of_mem (List.nodup_finRange 13) (List.mem_finRange j),
      List.replicate_one]
  refine List.map_congr_left fun i _ => ?_
  rw [codewordBit_eq_xorAll_columns t (by simp)]
  simp only [getD_unit hj]
  rw [← xorAll_filter, honly]
  exact Bool.xor_false _

/-- R85: a vector followed by zeros has, at a longer length, the codeword it has at the shorter. -/
theorem encodeVector_append_zeros (t : CodeTable) {n n' : InfoLen} {v : List Bool}
    (hlt : n.toNat < n'.toNat) (hv : v.length = n.toNat) :
    encodeVector t n' (v ++ List.replicate (n'.toNat - n.toNat) false) = encodeVector t n v := by
  have hlen : (v ++ List.replicate (n'.toNat - n.toNat) false).length = n'.toNat := by
    simp [hv]; lia
  have hbit (i : Fin 20) : codewordBit t n' (v ++ List.replicate (n'.toNat - n.toNat) false) i =
      codewordBit t n v i := by
    simp only [codewordBit_eq_xorAll_columns t hlen, codewordBit_eq_xorAll_columns t hv,
      getD_append_replicate_false]
  exact List.map_congr_left fun i _ => hbit i

/-- Settles O14: each law by its lemma. -/
theorem encoderObeysItsFiveLaws : Obligations.EncoderObeysItsFiveLaws := fun t n =>
  ⟨encodeVector_replicate_false t n, fun _ _ => encodeVector_zipWith_xor t,
    fun _ => encodeVector_unit t, fun _ => encodeVector_eq_foldl_column t,
    fun _ _ => encodeVector_append_zeros t⟩

/-- The XOR of equal-length vectors is the XOR of their integers. -/
theorem bits2u_zipWith_xor {u v : List Bool} (h : u.length = v.length) :
    bits2u (List.zipWith xor u v) = bits2u u ^^^ bits2u v := by
  apply Nat.eq_of_testBit_eq
  intro k
  rw [Nat.testBit_xor, testBit_bits2u, testBit_bits2u, testBit_bits2u, getD_zipWith_xor h]

/-- `COL[j]` is column `j` as an integer. -/
theorem bits2u_column (t : CodeTable) (j : Fin 13) : bits2u (t.column j) = t.colNum j := by
  apply Nat.eq_of_testBit_eq
  intro k
  rw [testBit_bits2u, CodeTable.colNum, sum_bits_testBit 20 (fun i => tblRead t i j)]
  by_cases hk : k < 20 <;> simp [CodeTable.column, hk]

/-- `bits2u` takes the XOR of columns as vectors to the XOR of columns as integers. -/
theorem bits2u_foldl_column (t : CodeTable) (L : List (Fin 13)) (acc : List Bool)
    (hacc : acc.length = 20) :
    bits2u (L.foldl (fun acc j => List.zipWith xor acc (t.column j)) acc) =
      L.foldl (fun acc j => acc ^^^ t.colNum j) (bits2u acc) := by
  induction L generalizing acc with
  | nil => rfl
  | cons j L ih =>
    have hcol : acc.length = (t.column j).length := by simp [hacc, CodeTable.column]
    rw [List.foldl_cons, ih _ (by simp [← hcol, hacc]), bits2u_zipWith_xor hcol, bits2u_column,
      List.foldl_cons]

/-- R86, the column form: the column law of R85 in integers. -/
theorem bits2u_encodeVector_u2bits (t : CodeTable) (n : InfoLen) (c : Nat) :
    bits2u (encodeVector t n (u2bits n.toNat c)) =
      ((List.finRange 13).filter fun j : Fin 13 => j.val < n.toNat && c.testBit j.val).foldl
        (fun acc j => acc ^^^ t.colNum j) 0 := by
  rw [encodeVector_eq_foldl_column t (length_u2bits _ _), bits2u_foldl_column t _ _ (by simp)]
  simp only [beq_some_true_eq_getD, getD_u2bits]
  rfl

/-- Bit `j` of `ROW[i]` is `T[i][j]`. -/
theorem testBit_rowNum (t : CodeTable) (i : Fin 20) (j : Fin 13) :
    (t.rowNum i).testBit j.val = tblRead t i j := by
  rw [CodeTable.rowNum, sum_bits_testBit 13 (tblRead t i), dif_pos j.isLt]

/-- The XOR of the bits numbered below `m` is their parity, counted as a set. -/
theorem xorAll_map_range_eq_parity (f : Nat → Bool) (m : Nat) :
    xorAll ((List.range m).map f) =
      decide (((Finset.range m).filter fun k => f k = true).card % 2 = 1) := by
  have hcount : ((List.range m).map f).count true =
      ((Finset.range m).filter fun k => f k = true).card := by
    rw [List.count, List.countP_map, ← Nat.count_eq_card_filter_range, Nat.count]
    simp [Function.comp_def]
  rw [xorAll_eq_parity, hcount]

/-- R86, the row form. -/
theorem codewordBit_u2bits_eq_parity (t : CodeTable) (n : InfoLen) (c : Nat) (i : Fin 20) :
    codewordBit t n (u2bits n.toNat c) i =
      decide (((Finset.range 13).filter fun k =>
        (c &&& t.rowNum i &&& (2 ^ n.toNat - 1)).testBit k = true).card % 2 = 1) := by
  have hterm (j : Fin 13) : (((u2bits n.toNat c)[j.val]?).getD false && tblRead t i j) =
      (c &&& t.rowNum i &&& (2 ^ n.toNat - 1)).testBit j.val := by
    rw [getD_u2bits, Nat.testBit_and, Nat.testBit_and, testBit_rowNum, Nat.testBit_two_pow_sub_one,
      Bool.and_assoc, Bool.and_comm]
  rw [codewordBit_eq_xorAll_columns t (length_u2bits _ _), ← xorAll_map_range_eq_parity,
    ← List.map_coe_finRange_eq_range, List.map_map]
  exact congrArg xorAll (List.map_congr_left fun j _ => hterm j)

/-- Settles O15: the column form and the row form, which hold for every number `c`. -/
theorem encoderHasTwoWordForms : Obligations.EncoderHasTwoWordForms := fun t n c _ =>
  ⟨bits2u_encodeVector_u2bits t n c, codewordBit_u2bits_eq_parity t n c⟩

namespace Machine

/-- ENCODE of a vector that has not `N` bits (R83). -/
theorem exec_encode_of_length_ne {s : State} {n : InfoLen} {info : List Bool}
    (hcfg : s.ncfg.toNat = n.toNat) (hlen : info.length ≠ n.toNat) :
    exec (.encode info) s = .next (raise .infoLen s) := by
  rw [exec, execEncode, State.infoLen?_eq_some.mpr hcfg]
  exact if_pos hlen

/-- ENCODE of a vector of `N` bits (R84). -/
theorem exec_encode_of_length_eq {s : State} {n : InfoLen} {info : List Bool}
    (hcfg : s.ncfg.toNat = n.toNat) (hlen : info.length = n.toNat) : exec (.encode info) s =
      .next (respond 20 (bitsPayload (encodeVector s.table n info)) s) := by
  rw [exec, execEncode, State.infoLen?_eq_some.mpr hcfg]
  exact if_neg (not_not.mpr hlen)

/-- Settles O13: the two branches of ENCODE's length check, their response words written out. -/
theorem encodeChecksLength : Obligations.EncodeChecksLength := fun _ _ _ hcfg =>
  ⟨fun hne => exec_encode_of_length_ne hcfg hne,
    fun hlen => ⟨_, exec_encode_of_length_eq hcfg hlen⟩⟩

end Machine
end Sys2Proof

/-! The decoder's operation (41_ml_decoder.md R90 to R93): its length check, the one word that holds a
candidate, and the first maximum that the search answers. -/

namespace Sys2Proof.Machine

/-- A candidate is answered as one word, which holds its number (41_ml_decoder.md R94). -/
theorem bitsPayload_u2bits {n : InfoLen} {c : Nat} (hc : c < 2 ^ n.toNat) :
    bitsPayload (u2bits n.toNat c) = [.bits (BitVec.ofNat 32 c)] := by
  obtain ⟨hge, hle⟩ := n.toNat_le
  have hne : u2bits n.toNat c ≠ [] := List.ne_nil_of_length_pos (by rw [length_u2bits]; lia)
  have hlen : (u2bits n.toNat c).length ≤ 32 := by rw [length_u2bits]; lia
  rw [bitsPayload, packBits_single hne hlen, bits2u_u2bits hc, List.map_singleton]

/-- A vector's response announces its `N` elements in `RLEN` (30_encoding.md R62). -/
theorem okWord_infoLen (n : InfoLen) : okWord n.toNat = BitVec.ofNat 32 n.toNat := by
  obtain ⟨-, hle⟩ := n.toNat_le
  exact okWord_eq (by lia)

/-- DECODE of any number of reals but 20 (R90). -/
theorem exec_decode_of_length_ne {s : State} {n : InfoLen} {llr : List NumWord}
    (hcfg : s.ncfg.toNat = n.toNat) (hlen : llr.length ≠ 20) :
    exec (.decode llr) s = .next (raise .llrLen s) := by
  rw [exec, execDecode, State.infoLen?_eq_some.mpr hcfg]
  exact if_pos hlen

/-- DECODE of 20 finite reals (R92). -/
theorem exec_decode_real {s : State} {n : InfoLen} {ls : List QA}
    (hcfg : s.ncfg.toNat = n.toNat) (hlen : ls.length = 20) : exec (.decode (ls.map .real)) s =
      .next { s with responses := s.responses ++
        [⟨BitVec.ofNat 32 n.toNat, [.bits (BitVec.ofNat 32 (bestCandidate s.table n ls))]⟩] } := by
  have hlen' : ¬ (ls.map NumWord.real).length ≠ Config.cwLen := by
    rw [List.length_map]; exact not_not.mpr hlen
  obtain ⟨hbest, -, -⟩ := bestCandidate_spec s.table n ls
  rw [← okWord_infoLen, ← bitsPayload_u2bits hbest, exec, execDecode,
    State.infoLen?_eq_some.mpr hcfg]
  simp only [if_neg hlen', finiteReals?_real]
  rfl

/-- Settles O16: the search's candidate, its metrics read as reals. -/
theorem decodeReturnsFirstMaximum : Obligations.DecodeReturnsFirstMaximum := by
  intro s n ls hcfg hlen
  obtain ⟨hlt, hmax, hfirst⟩ := bestCandidate_spec s.table n ls
  simp only [toReal_metric s.table n hlen] at hmax hfirst
  exact ⟨bestCandidate s.table n ls, hlt, hmax, hfirst, exec_decode_real hcfg hlen⟩

/-- Settles O17: the two branches of DECODE's length check, the failure's response word written out. -/
theorem decodeChecksLength : Obligations.DecodeChecksLength := fun _ _ hcfg =>
  ⟨fun _ hne => exec_decode_of_length_ne hcfg hne, fun _ hlen => ⟨_, exec_decode_real hcfg hlen⟩⟩

end Sys2Proof.Machine

/-! The QPSK mapper's operations (42_qpsk_mapper.md R101 to R105): what each branch answers, how the
host reads the answer back, and that the branch taken rests on the payload alone. -/

namespace Sys2Proof

/-- Two bits are one symbol (R101). -/
theorem length_mapSymbols (cw : List Bool) : (mapSymbols cw).length = cw.length / 2 := by
  rw [mapSymbols, List.length_map, length_pairUp]

namespace HostProc

/-- The host reads back the reals of a result payload (30_encoding.md R65). -/
theorem resultNums_numsPayload (w : Word) (xs : List NumWord) :
    resultNums ⟨w, numsPayload xs⟩ = xs := by
  simp [resultNums, numsPayload, Function.comp_def, PayloadWord.toNum]

/-- The host reads back the complex values of a result payload (30_encoding.md R66). -/
theorem resultCxs_cxsPayload (w : Word) (zs : List (Cx NumWord)) :
    resultCxs ⟨w, cxsPayload zs⟩ = zs := by
  rw [resultCxs, cxsPayload, resultNums_numsPayload, pairUp_flattenCx]

end HostProc

namespace Machine

/-- MODULATE of any number of bits but 20 (R101). -/
theorem exec_modulate_of_length_ne {cw : List Bool} (hlen : cw.length ≠ Config.cwLen) (s : State) :
    exec (.modulate cw) s = .next (raise .cwLen s) := if_pos hlen

/-- MODULATE of 20 bits (R101). -/
theorem exec_modulate_of_length_eq {cw : List Bool} (hlen : cw.length = Config.cwLen) (s : State) :
    exec (.modulate cw) s =
      .next (respond Config.symLen (cxsPayload ((mapSymbols cw).map realCx)) s) :=
  if_neg (not_not.mpr hlen)

/-- DEMODULATE of any number of symbols but 10, whatever their values (R102). -/
theorem exec_demodulate_of_length_ne {sym : List (Cx NumWord)} (hlen : sym.length ≠ Config.symLen)
    (s : State) :
    exec (.demodulate sym) s = .next (raise .symLen s) := if_pos hlen

/-- DEMODULATE of 10 finite symbols (R102). -/
theorem exec_demodulate_of_finite {sym : List (Cx NumWord)} {zs : List (Cx QA)}
    (hlen : sym.length = Config.symLen) (hfin : finiteCxs? sym = some zs) (s : State) :
    exec (.demodulate sym) s =
      .next (respond Config.cwLen (numsPayload ((flattenCx zs).map .real)) s) := by
  rw [exec, execDemodulate, if_neg (not_not.mpr hlen), hfin]

/-- DEMODULATE of 10 symbols that are not all finite has no meaning
(93_implementation_defined.md U4). -/
theorem exec_demodulate_of_nonFinite {sym : List (Cx NumWord)} (hlen : sym.length = Config.symLen)
    (hfin : finiteCxs? sym = none) (s : State) :
    exec (.demodulate sym) s = .refused .nonFiniteOperand := by
  rw [exec, execDemodulate, if_neg (not_not.mpr hlen), hfin]

/-- DEMODULATE of the symbols that MODULATE answered: the axis values of the bits, in order (R103). -/
theorem exec_demodulate_resultCxs {cw : List Bool} (hlen : cw.length = Config.cwLen) (w : Word)
    (s : State) :
    exec (.demodulate (HostProc.resultCxs ⟨w, cxsPayload ((mapSymbols cw).map realCx)⟩)) s =
      .next (respond Config.cwLen (numsPayload (cw.map fun b => .real (axis b))) s) := by
  have hsym : ((mapSymbols cw).map realCx).length = Config.symLen := by
    rw [List.length_map, length_mapSymbols, hlen]
    rfl
  have haxes : flattenCx (mapSymbols cw) = cw.map axis :=
    flattenCx_mapSymbols cw (by rw [hlen]; rfl)
  rw [HostProc.resultCxs_cxsPayload, exec_demodulate_of_finite hsym (finiteCxs?_realCx _), haxes,
    List.map_map]
  rfl

/-- Settles O26: the two operations in a row, their responses written out, and `axis` by its
definition. -/
theorem demodulateOfModulateGivesSigns : Obligations.DemodulateOfModulateGivesSigns := by
  refine ⟨?_, fun s cw hlen => ?_⟩
  · rw [QA.toReal_constA]
    exact one_div_sqrt_two_pos
  · exact ⟨_, _, exec_modulate_of_length_eq hlen s, exec_demodulate_resultCxs hlen _ _, _,
      List.append_assoc .., HostProc.resultNums_numsPayload _ _⟩

/-- MODULATE answers one response, the same in every state, and writes nothing else. -/
theorem exec_modulate_pure (cw : List Bool) :
    ∃ r, ∀ s : State, exec (.modulate cw) s = .next (s.addResponse r) := by
  by_cases hlen : cw.length = Config.cwLen
  · exact ⟨_, exec_modulate_of_length_eq hlen⟩
  · exact ⟨_, exec_modulate_of_length_ne hlen⟩

/-- DEMODULATE answers one response, the same in every state, and writes nothing else; or it refuses
its symbols, which are not all finite, in every state. -/
theorem exec_demodulate_pure (sym : List (Cx NumWord)) :
    (∃ r, ∀ s : State, exec (.demodulate sym) s = .next (s.addResponse r)) ∨
    ((∀ zs : List (Cx QA), sym ≠ zs.map realCx) ∧
      ∀ s : State, exec (.demodulate sym) s = .refused .nonFiniteOperand) := by
  by_cases hlen : sym.length = Config.symLen
  · cases hfin : finiteCxs? sym with
    | some zs => exact .inl ⟨_, exec_demodulate_of_finite hlen hfin⟩
    | none =>
      refine .inr ⟨?_, exec_demodulate_of_nonFinite hlen hfin⟩
      rintro zs rfl
      rw [finiteCxs?_realCx] at hfin
      cases hfin
  · exact .inl ⟨_, exec_demodulate_of_length_ne hlen⟩

/-- Settles O27: the answer to each operation is chosen before the state is. -/
theorem mapperDependsOnPayloadAlone : Obligations.MapperDependsOnPayloadAlone := by
  intro s t cw sym
  obtain ⟨r, hmod⟩ := exec_modulate_pure cw
  refine ⟨⟨r, hmod s, hmod t⟩, ?_⟩
  obtain ⟨r', hdemod⟩ | ⟨hnonFinite, hrefused⟩ := exec_demodulate_pure sym
  · exact .inl ⟨r', hdemod s, hdemod t⟩
  · exact .inr ⟨hnonFinite, hrefused s, hrefused t⟩

end Machine
end Sys2Proof

/-! The host procedures over the block (44_host_composites.md R120 to R126): a command the host issues is
the operation it encodes, each operation of a trial answers, and a simulation counts its trials. -/

namespace Sys2Proof

/-- A command with the payload that its word announces is read as itself (30_encoding.md R60, R61). -/
theorem decode_word_payload {i : Instr} (hwf : WellFormed i) : decode i.word i.payload = .ok i := by
  have hsetsnr (x : NumWord) : readNums? 1 (numsPayload [x]) = some [x] := readNums?_numsPayload [x]
  have hread : readPayload i.opcode i.word i.payload = some i := by
    cases i <;> simp [readPayload, Instr.opcode, Instr.payload, lenField_word_toNat hwf, Instr.len,
      (fields_word _).2.1, Instr.arg, readBits?_bitsPayload, readNums?_numsPayload,
      readCxs?_cxsPayload, hsetsnr]
  rw [decode_of_selectRow (selectRow_word i), hread]

namespace Machine

/-- CONFIG of a supported length (40_block_encoder.md R81). -/
theorem exec_config_supported {arg : BitVec 4} {n : InfoLen} (harg : arg.toNat = n.toNat) (s : State) :
    exec (.config arg) s = .next (respond 0 [] (s.setNcfg arg)) := by
  rw [exec, execConfig, InfoLen.ofBits?_eq_some.mpr harg]

/-- APPLY of finite symbols when every draw is finite (43_awgn_channel.md R114). -/
theorem exec_apply_real {s : State} {x : QA} {zs : List (Cx QA)} {draws : List QA}
    (hsnr : s.snr = some x) (hne : zs ≠ []) (hdraws : s.draws? (2 * zs.length) = some draws) :
    exec (.apply (zs.map realCx)) s =
      .next (respond zs.length (cxsPayload ((noisyCopy x zs draws).map realCx))
        (s.advanceNoise (2 * zs.length))) := by
  simp [exec, execApply, hsnr, hne, hdraws]

end Machine

namespace HostProc

open Machine

/-- A procedure whose first command completed goes on with its result. -/
@[simp] theorem ok_bind {α β : Type} (a : α) (f : α → Except Stop β) : (.ok a >>= f) = f a := rfl

/-- A procedure completes exactly where its first command does and the rest does with its result. -/
theorem bind_eq_ok {α β : Type} {x : Except Stop α} {f : α → Except Stop β} {b : β} :
    x >>= f = .ok b ↔ ∃ a, x = .ok a ∧ f a = .ok b := by
  cases x with
  | error e => simp [bind, Except.bind]
  | ok a => simp

/-- The host reads back the bits of a result payload (30_encoding.md R64). -/
theorem resultBits_bitsPayload {k : Nat} {bs : List Bool} (hlen : bs.length = k) (hk : k ≤ 65535) :
    resultBits ⟨okWord k, bitsPayload bs⟩ = bs := by
  subst hlen
  have hwords : (bitsPayload bs).map PayloadWord.toBits = packBits bs := by
    simp [bitsPayload, Function.comp_def, PayloadWord.toBits]
  have hrlen : (rlenField (okWord bs.length)).toNat = bs.length := by
    rw [rlenField_okWord, BitVec.toNat_ofNat]
    exact Nat.mod_eq_of_lt (by lia)
  rw [resultBits, hwords, hrlen, unpackBits_packBits]

/-- The host reads back a decoded vector (41_ml_decoder.md R94). -/
theorem resultBits_u2bits (n : InfoLen) (c : Nat) :
    resultBits ⟨okWord n.toNat, bitsPayload (u2bits n.toNat c)⟩ = u2bits n.toNat c := by
  obtain ⟨-, hle⟩ := n.toNat_le
  exact resultBits_bitsPayload (length_u2bits _ _) (by lia)

/-- Issuing a command runs its operation and leaves the host's own moves in place (R120). -/
theorem transact_eq_takeResponse {i : Instr} (hwf : WellFormed i) (s : State) :
    transact i s = takeResponse s (exec i s) := by
  rw [transact, if_neg (not_lt.mpr hwf)]
  exact congrArg (takeResponse s) (runCommand_of_decode (decode_word_payload hwf) s)

/-- The host's result of an operation that responds `OK` (R120). -/
theorem transact_of_respond {i : Instr} {s s' : State} {k : Nat} {p : List PayloadWord}
    (hwf : WellFormed i) (hexec : exec i s = .next (respond k p s'))
    (hsame : s'.responses = s.responses) :
    transact i s = .ok (⟨okWord k, p⟩, respond k p s') := by
  rw [transact_eq_takeResponse hwf, hexec]
  exact takeResponse_success (by rw [respond_responses, hsame]) (errField_okWord k)

/-- The host's CONFIG of a supported length (R121 to R123). -/
theorem transact_config {arg : BitVec 4} {n : InfoLen} (harg : arg.toNat = n.toNat) (s : State) :
    transact (.config arg) s = .ok (⟨okWord 0, []⟩, respond 0 [] (s.setNcfg arg)) :=
  transact_of_respond (Nat.zero_le _) (exec_config_supported harg s) rfl

/-- The host's SETSNR of a finite real (R123). -/
theorem transact_setsnr (x : QA) (s : State) :
    transact (.setsnr (.real x)) s = .ok (⟨okWord 0, []⟩, respond 0 [] (s.setSnr x)) := by
  have hwf : WellFormed (.setsnr (.real x)) := show 1 ≤ 65535 by decide
  exact transact_of_respond hwf rfl rfl

/-- The host's ENCODE of `N` bits (R121, R123). -/
theorem transact_encode {s : State} {n : InfoLen} {v : List Bool} (hcfg : s.ncfg.toNat = n.toNat)
    (hv : v.length = n.toNat) : transact (.encode v) s =
      .ok (⟨okWord 20, bitsPayload (encodeVector s.table n v)⟩,
        respond 20 (bitsPayload (encodeVector s.table n v)) s) := by
  obtain ⟨-, hle⟩ := n.toNat_le
  have hwf : WellFormed (.encode v) := hv.trans_le (hle.trans (by decide))
  exact transact_of_respond hwf (exec_encode_of_length_eq hcfg hv) rfl

/-- The host's MODULATE of 20 bits (R121, R123). -/
theorem transact_modulate {cw : List Bool} (hcw : cw.length = 20) (s : State) :
    transact (.modulate cw) s = .ok (⟨okWord 10, cxsPayload ((mapSymbols cw).map realCx)⟩,
      respond 10 (cxsPayload ((mapSymbols cw).map realCx)) s) := by
  have hwf : WellFormed (.modulate cw) := hcw.trans_le (by decide)
  exact transact_of_respond hwf (exec_modulate_of_length_eq hcw s) rfl

/-- The host's APPLY of ten finite symbols when the next 20 draws are finite (R123). -/
theorem transact_apply {s : State} {x : QA} {zs : List (Cx QA)} {draws : List QA}
    (hsnr : s.snr = some x) (hzs : zs.length = 10) (hdraws : s.draws? 20 = some draws) :
    transact (.apply (zs.map realCx)) s =
      .ok (⟨okWord 10, cxsPayload ((noisyCopy x zs draws).map realCx)⟩,
        respond 10 (cxsPayload ((noisyCopy x zs draws).map realCx)) (s.advanceNoise 20)) := by
  have hwf : WellFormed (.apply (zs.map realCx)) :=
    (List.length_map _).trans_le (hzs.trans_le (by decide))
  have hne : zs ≠ [] := List.ne_nil_of_length_pos (by lia)
  have hexec := exec_apply_real (zs := zs) hsnr hne (by rw [hzs]; exact hdraws)
  rw [hzs] at hexec
  exact transact_of_respond hwf hexec rfl

/-- The host's DEMODULATE of ten finite symbols (R122, R123). -/
theorem transact_demodulate {zs : List (Cx QA)} (hzs : zs.length = 10) (s : State) :
    transact (.demodulate (zs.map realCx)) s =
      .ok (⟨okWord 20, numsPayload ((flattenCx zs).map .real)⟩,
        respond 20 (numsPayload ((flattenCx zs).map .real)) s) := by
  have hlen : (zs.map realCx).length = 10 := (List.length_map _).trans hzs
  have hwf : WellFormed (.demodulate (zs.map realCx)) := hlen.trans_le (by decide)
  exact transact_of_respond hwf (exec_demodulate_of_finite hlen (finiteCxs?_realCx zs) s) rfl

/-- The host's DECODE of 20 finite reals (R122, R123). -/
theorem transact_decode {s : State} {n : InfoLen} {ls : List QA} (hcfg : s.ncfg.toNat = n.toNat)
    (hls : ls.length = 20) : transact (.decode (ls.map .real)) s =
      .ok (⟨okWord n.toNat, bitsPayload (u2bits n.toNat (bestCandidate s.table n ls))⟩,
        respond n.toNat (bitsPayload (u2bits n.toNat (bestCandidate s.table n ls))) s) := by
  have hwf : WellFormed (.decode (ls.map .real)) :=
    (List.length_map _).trans_le (hls.trans_le (by decide))
  obtain ⟨hbest, -, -⟩ := bestCandidate_spec s.table n ls
  have hexec := exec_decode_real hcfg hls
  rw [← okWord_infoLen, ← bitsPayload_u2bits hbest] at hexec
  exact transact_of_respond hwf hexec rfl

/-- The vector the host gets back in one trial (R123): `v` encoded, mapped, disturbed by the draws at
`x` dB, and decoded. -/
def receivedVector (t : CodeTable) (n : InfoLen) (x : QA) (draws : List QA) (v : List Bool) :
    List Bool :=
  u2bits n.toNat (bestCandidate t n (flattenCx (noisyCopy x (mapSymbols (encodeVector t n v)) draws)))

/-- One trial in a configured block (R123): its five commands complete, it takes 20 draws, and it adds
responses. -/
theorem trial_eq {s : State} {n : InfoLen} {x : QA} {draws : List QA} {v : List Bool}
    (hcfg : s.ncfg.toNat = n.toNat) (hsnr : s.snr = some x) (hdraws : s.draws? 20 = some draws)
    (hv : v.length = n.toNat) :
    ∃ rs, trial v s = .ok (receivedVector s.table n x draws v == v,
      { s.advanceNoise 20 with responses := s.responses ++ rs }) := by
  have hcw : (encodeVector s.table n v).length = 20 := length_encodeVector ..
  have hsym : (mapSymbols (encodeVector s.table n v)).length = 10 := by rw [length_mapSymbols, hcw]
  have hrx : (noisyCopy x (mapSymbols (encodeVector s.table n v)) draws).length = 10 := by
    rw [length_noisyCopy (by rw [(State.draws?_spec hdraws).1, hsym]), hsym]
  have hllr : (flattenCx (noisyCopy x (mapSymbols (encodeVector s.table n v)) draws)).length = 20 := by
    rw [length_flattenCx, hrx]
  have happly (p q) := transact_apply (s := respond 10 q (respond 20 p s)) hsnr hsym hdraws
  have hdecode (p q r l) := transact_decode
    (s := respond 20 l (respond 10 r ((respond 10 q (respond 20 p s)).advanceNoise 20))) hcfg hllr
  simp only [trial, ok_bind, transact_encode hcfg hv, resultBits_bitsPayload hcw (by decide),
    transact_modulate hcw, resultCxs_cxsPayload, happly, transact_demodulate hrx,
    resultNums_numsPayload, hdecode, resultBits_u2bits]
  simp only [respond, State.addResponse, State.advanceNoise, List.append_assoc]
  exact ⟨_, rfl⟩

/-- What every command of a simulation's loop relies on: both registers configured and a noise source
that answers finite reals (60_exceptions.md R133; log 5). -/
structure ReadyForTrials (s : State) (n : InfoLen) (x : QA) : Prop where
  configured  : s.ncfg.toNat = n.toNat
  snr         : s.snr = some x
  finiteNoise : .nonFinite ∉ s.noise

/-- A trial leaves the block ready for the next one. -/
theorem ReadyForTrials.advance {s : State} {n : InfoLen} {x : QA} (hready : ReadyForTrials s n x)
    (rs : List Response) :
    ReadyForTrials { s.advanceNoise 20 with responses := s.responses ++ rs } n x :=
  ⟨hready.configured, hready.snr, fun hmem => hready.finiteNoise (List.mem_of_mem_drop hmem)⟩

/-- Every trial of a ready block completes (R123), with 20 draws each (43_awgn_channel.md R114). -/
theorem trials_complete {n : InfoLen} {x : QA} (vs : List (List Bool))
    (hvs : ∀ v ∈ vs, v.length = n.toNat) (t : Tally) {s : State} (hready : ReadyForTrials s n x) :
    ∃ t' s', trials vs t s = .ok (t', s') ∧ s'.drawn = s.drawn + 20 * vs.length := by
  induction vs generalizing t s with
  | nil => exact ⟨t, s, rfl, rfl⟩
  | cons v vs ih =>
    obtain ⟨hv, hvs⟩ := List.forall_mem_cons.mp hvs
    have hfinite (i : Nat) (_ : i < 20) : s.noise[i]? ≠ some .nonFinite :=
      fun hget => hready.finiteNoise (List.mem_of_getElem? hget)
    obtain ⟨draws, hdraws⟩ := State.draws?_isSome hfinite
    obtain ⟨rs, htrial⟩ := trial_eq hready.configured hready.snr hdraws hv
    rw [trials, htrial]
    cases receivedVector s.table n x draws v == v
    all_goals
      obtain ⟨t', s', hrun, hdrawn⟩ := ih hvs _ (hready.advance rs)
      exact ⟨t', s', hrun, by
        simp only [State.advanceNoise_drawn, List.length_cons] at hdrawn ⊢; lia⟩

/-- SIMULATE of a supported length, a positive count and a finite SNR completes where the connected
noise source answers finite reals (R123). -/
theorem simulate_completes {arg : BitVec 4} {n : InfoLen} (harg : arg.toNat = n.toNat)
    {iterations : Int} (hpos : 0 < iterations) (x : QA) (draw : Nat → Nat → Bool) {s : State}
    (hnoise : .nonFinite ∉ s.noise) :
    ∃ t s', simulate arg iterations (.real x) draw s = .ok (t, s') ∧
      s'.drawn = s.drawn + 20 * iterations.toNat := by
  have hready : ReadyForTrials (respond 0 [] ((respond 0 [] (s.setNcfg arg)).setSnr x)) n x :=
    ⟨harg, rfl, hnoise⟩
  obtain ⟨t, s', hrun, hdrawn⟩ := trials_complete
    ((List.range iterations.toNat).map fun k => (List.range arg.toNat).map (draw k))
    (by simp [harg]) ⟨0, 0⟩ hready
  refine ⟨t, s', ?_, by simpa using hdrawn⟩
  simp only [simulate, if_neg (not_le.mpr hpos), transact_config harg, ok_bind, transact_setsnr, hrun]

/-- The Simulation Accumulator counts every iteration once, whenever SIMULATE completes (R123, R126). -/
theorem simulate_counts {arg : BitVec 4} {iterations : Int} {snr : NumWord} {draw : Nat → Nat → Bool}
    {s s' : State} {t : Tally} (h : simulate arg iterations snr draw s = .ok (t, s')) :
    0 < iterations ∧ ((t.success + t.failure : ℕ) : Int) = iterations := by
  rw [simulate] at h
  split_ifs at h with hpos
  obtain ⟨_, -, h⟩ := bind_eq_ok.mp h
  obtain ⟨_, -, hrun⟩ := bind_eq_ok.mp h
  have hcounts := trials_counts _ hrun
  rw [List.length_map, List.length_range] at hcounts
  lia

/-- `BLER` is the ratio of a part to its whole (R125). -/
theorem bler_mem_Icc (t : Tally) : bler t ∈ Set.Icc 0 1 := by
  have hpart : (t.failure : ℚ) ≤ (t.success + t.failure : ℕ) := Nat.cast_le.mpr (Nat.le_add_left ..)
  exact ⟨div_nonneg (Nat.cast_nonneg _) (Nat.cast_nonneg _),
    div_le_one_of_le₀ hpart (Nat.cast_nonneg _)⟩

/-- What the Channel simulation mode returns is the tally of a SIMULATE with its `BLER` (R125). -/
theorem channelSimulation_eq_ok {n iterations : Int} {snr : Option NumWord} {draw : Nat → Nat → Bool}
    {s s' : State} {r : Report} (h : channelSimulation n iterations snr draw s = .ok (r, s')) :
    ∃ arg t, simulate arg iterations (snr.getD defaultSnr) draw s = .ok (t, s') ∧
      r = ⟨t.success, t.failure, bler t⟩ := by
  rw [channelSimulation, withArg] at h
  split_ifs at h
  obtain ⟨⟨t, _⟩, hsim, hreport⟩ := bind_eq_ok.mp h
  cases hreport
  exact ⟨_, t, hsim, rfl⟩

/-- The Channel simulation mode returns where its SIMULATE completes (R125). -/
theorem channelSimulation_of_simulate {n : InfoLen} {iterations : Int} (hpos : 0 < iterations)
    {snr : NumWord} {draw : Nat → Nat → Bool} {s s' : State} {t : Tally}
    (hsim : simulate (BitVec.ofNat 4 n.toNat) iterations snr draw s = .ok (t, s')) :
    channelSimulation n.toNat iterations (some snr) draw s =
      .ok (⟨t.success, t.failure, bler t⟩, s') := by
  rw [channelSimulation, if_neg (not_le.mpr hpos), withArg_supported, Option.getD_some, hsim]
  rfl

/-- Settles O47: a report is a completed tally with its ratio, and SIMULATE completes under the second
clause's hypotheses. -/
theorem simulationModeReportsBler : Obligations.SimulationModeReportsBler := by
  refine ⟨fun n iterations snr draw s s' r hreturn => ?_, fun n iterations x draw s hpos hnoise => ?_⟩
  · obtain ⟨arg, t, hsim, rfl⟩ := channelSimulation_eq_ok hreturn
    obtain ⟨hpos, hcount⟩ := simulate_counts hsim
    obtain ⟨hge, hle⟩ := bler_mem_Icc t
    exact ⟨hcount, by lia, rfl, hge, hle⟩
  · have harg : (BitVec.ofNat 4 n.toNat).toNat = n.toNat := by cases n <;> rfl
    obtain ⟨_, s', hsim, -⟩ := simulate_completes harg hpos x draw hnoise
    exact ⟨_, s', channelSimulation_of_simulate hpos hsim⟩

/-- Settles O43: the count is checked before the first command. -/
theorem simulateRefusesNonPositiveCount : Obligations.SimulateRefusesNonPositiveCount :=
  fun _ _ _ _ _ hcount => if_pos hcount

end HostProc
end Sys2Proof

/-! How an operation ends (60_exceptions.md R130 to R137): it raises a cause or responds, it makes its
checks in one order, and the responses given before it are no input to it. -/

namespace Sys2Proof.Machine

/-- An operation that completes raises one of its causes, or responds over the responses it found. -/
theorem exec_raises_or_responds {i : Instr} {s s' : State} (h : exec i s = .next s') :
    (∃ c ∈ i.opcode.causes, s' = raise c s) ∨
    (∃ k p t, t.responses = s.responses ∧ s' = respond k p t) := by
  obtain hraise | ⟨_, _, -, -, rfl⟩ | ⟨_, _, -, -, -, rfl⟩ | ⟨_, _, _, -, -, -, -, rfl⟩ |
    ⟨_, -, -, rfl⟩ | ⟨_, _, -, -, -, rfl⟩ | ⟨_, -, rfl⟩ | ⟨_, _, _, _, -, -, -, -, -, rfl⟩ :=
    exec_next_cases h
  · exact .inl hraise
  all_goals exact .inr ⟨_, _, _, by rfl, rfl⟩

/-- No operation raises ITER_COUNT, the cause of the host's SIMULATE (60_exceptions.md R131). -/
theorem iterCount_notMem_causes (op : Opcode) : Cause.iterCount ∉ op.causes := by
  cases op <;> decide

/-- A step on a command raises one of the block's causes, with the move taken, or responds. -/
theorem step_command_raises_or_responds {s s' : State} {c : Command} {rest : List HostMove}
    (hhost : s.host = .command c :: rest) (h : step s = .next s') :
    (∃ k, k ≠ .iterCount ∧ s' = raise k (s.setHost rest)) ∨
    (∃ k p t, t.responses = s.responses ∧ s' = respond k p t) := by
  obtain ⟨hnil, -⟩ | ⟨_, hreset, -⟩ | ⟨c', rest', hcommand, hrun⟩ := step_next_cases h
  · cases hhost.symm.trans hnil
  · cases hhost.symm.trans hreset
  · cases hhost.symm.trans hcommand
    obtain ⟨-, rfl⟩ | ⟨i, -, hexec⟩ := hrun
    · exact .inl ⟨.illegalCmd, nofun, rfl⟩
    · obtain ⟨k, hk, rfl⟩ | hrespond := exec_raises_or_responds hexec
      · exact .inl ⟨k, ne_of_mem_of_not_mem hk (iterCount_notMem_causes _), rfl⟩
      · exact .inr hrespond

/-- The codes of the causes the block can raise (R131). -/
theorem code_mem_of_ne_iterCount {k : Cause} (hk : k ≠ .iterCount) :
    k.code ∈ ([1, 2, 3, 4, 5, 6, 8, 9] : List (BitVec 4)) := by
  revert hk
  cases k <;> decide

/-- Settles O34: a step on a command ends in `raise`, which writes the response alone, or in `respond`,
whose word has `ERR = 0`. -/
theorem failureLeavesStateAlone : Obligations.FailureLeavesStateAlone := by
  intro s s' c rest hhost hstep
  obtain ⟨k, hk, rfl⟩ | ⟨k, p, t, ht, rfl⟩ := step_command_raises_or_responds hhost hstep
  · exact ⟨⟨errWord k, []⟩, rfl, fun _ => ⟨⟨k.code, code_mem_of_ne_iterCount hk, rfl⟩, rfl, rfl⟩⟩
  · refine ⟨⟨okWord k, p⟩, by rw [respond_responses, ht], fun herr => ?_⟩
    exact absurd ((errField_okWord k).symm.trans herr) nofun

/-! The order of the checks (R134). -/

/-- Where `NCFG` is legal, the pattern that names no length is `NONE` (10_state.md R26). -/
theorem State.infoLen?_eq_none {s : State} (hlegal : NcfgLegal s.ncfg) :
    s.infoLen? = none ↔ s.ncfg = 0 := by
  refine InfoLen.ofBits?_eq_none.trans ⟨hlegal.resolve_right, fun h0 => ?_⟩
  rw [h0]
  decide

/-- A legal `NCFG` other than `NONE` holds a supported length (10_state.md R26). -/
theorem exists_ncfg_toNat_eq {s : State} (hlegal : NcfgLegal s.ncfg) (h0 : s.ncfg ≠ 0) :
    ∃ n : InfoLen, s.ncfg.toNat = n.toNat := by
  obtain ⟨n, hn⟩ := Option.ne_none_iff_exists'.mp (mt (State.infoLen?_eq_none hlegal).mp h0)
  exact ⟨n, State.infoLen?_eq_some.mp hn⟩

/-- An operation whose register is `NONE` is NOT_CONFIGURED (60_exceptions.md R133). -/
theorem exec_of_unconfigured {i : Instr} {s : State} (hlegal : NcfgLegal s.ncfg)
    (hunconf : Unconfigured i s) : exec i s = .next (raise .notConfigured s) := by
  cases i with
  | encode info => rw [exec, execEncode, (State.infoLen?_eq_none hlegal).mpr hunconf]
  | decode llr => rw [exec, execDecode, (State.infoLen?_eq_none hlegal).mpr hunconf]
  | apply sym => rw [exec, execApply, show s.snr = none from hunconf]
  | config | modulate | demodulate | setsnr => exact hunconf.elim

/-- A configured operation whose own check fails raises the cause of that check (R131). -/
theorem exec_of_ownCheckFails {i : Instr} {s : State} {code : BitVec 4} (hlegal : NcfgLegal s.ncfg)
    (hconf : ¬ Unconfigured i s) (hfail : OwnCheckFails i s code) :
    ∃ c : Cause, c.code = code ∧ exec i s = .next (raise c s) := by
  cases i with
  | config n =>
    obtain ⟨hn, rfl⟩ := hfail
    exact ⟨.unsupportedN, rfl, by rw [exec, execConfig, InfoLen.ofBits?_eq_none.mpr hn]⟩
  | encode info =>
    obtain ⟨hlen, rfl⟩ := hfail
    obtain ⟨n, hcfg⟩ := exists_ncfg_toNat_eq hlegal hconf
    exact ⟨.infoLen, rfl, exec_encode_of_length_ne hcfg (hcfg ▸ hlen)⟩
  | decode llr =>
    obtain ⟨hlen, rfl⟩ := hfail
    obtain ⟨n, hcfg⟩ := exists_ncfg_toNat_eq hlegal hconf
    exact ⟨.llrLen, rfl, exec_decode_of_length_ne hcfg hlen⟩
  | modulate cw =>
    obtain ⟨hlen, rfl⟩ := hfail
    exact ⟨.cwLen, rfl, exec_modulate_of_length_ne hlen s⟩
  | demodulate sym =>
    obtain ⟨hlen, rfl⟩ := hfail
    exact ⟨.symLen, rfl, exec_demodulate_of_length_ne hlen s⟩
  | setsnr x => exact hfail.elim
  | apply sym =>
    obtain ⟨rfl, rfl⟩ := hfail
    obtain ⟨x, hsnr⟩ := Option.ne_none_iff_exists'.mp hconf
    exact ⟨.emptyInput, rfl, by rw [exec, execApply, hsnr]; rfl⟩

/-- A success is no failure: their response words differ in `ERR`. -/
theorem respond_ne_raise (k : Nat) (p : List PayloadWord) (t : State) (c : Cause) (s : State) :
    respond k p t ≠ raise c s := by
  intro h
  have hlast : t.responses ++ [⟨okWord k, p⟩] = s.responses ++ [⟨errWord c, []⟩] :=
    congrArg State.responses h
  obtain ⟨-, hresponse⟩ := List.append_inj' hlast rfl
  have herr : errField (okWord k) = errField (errWord c) := by
    rw [(Response.mk.inj (List.singleton_inj.mp hresponse)).1]
  rw [errField_okWord, errField_errWord] at herr
  cases herr

/-- Every failure of an operation is one of its checks: the register's, or its own. -/
theorem check_fails_of_exec_raise {i : Instr} {s : State} {c : Cause} (hlegal : NcfgLegal s.ncfg)
    (h : exec i s = .next (raise c s)) : Unconfigured i s ∨ ∃ code, OwnCheckFails i s code := by
  have hrespond {k p t} : (.next (respond k p t) : Host.Outcome State Fault Refusal) ≠
      .next (raise c s) := fun heq => respond_ne_raise k p t c s (Host.Outcome.next.inj heq)
  cases i with
  | config n =>
    simp only [exec, execConfig] at h
    split at h
    · exact .inr ⟨1, InfoLen.ofBits?_eq_none.mp ‹_›, rfl⟩
    · exact absurd h hrespond
  | encode info =>
    simp only [exec, execEncode] at h
    split at h
    · exact .inl ((State.infoLen?_eq_none hlegal).mp ‹_›)
    · next n hn =>
      split at h
      · next hlen => exact .inr ⟨2, State.infoLen?_eq_some.mp hn ▸ hlen, rfl⟩
      · exact absurd h hrespond
  | decode llr =>
    simp only [exec, execDecode] at h
    split at h
    · exact .inl ((State.infoLen?_eq_none hlegal).mp ‹_›)
    · split at h
      · exact .inr ⟨3, ‹_›, rfl⟩
      · split at h
        · cases h
        · exact absurd h hrespond
  | modulate cw =>
    simp only [exec, execModulate] at h
    split at h
    · exact .inr ⟨4, ‹_›, rfl⟩
    · exact absurd h hrespond
  | demodulate sym =>
    simp only [exec, execDemodulate] at h
    split at h
    · exact .inr ⟨5, ‹_›, rfl⟩
    · split at h
      · cases h
      · exact absurd h hrespond
  | setsnr x =>
    simp only [exec, execSetsnr] at h
    split at h
    · cases h
    · exact absurd h hrespond
  | apply sym =>
    simp only [exec, execApply] at h
    split at h
    · exact .inl ‹_›
    · split at h
      · next hempty => exact .inr ⟨6, List.isEmpty_iff.mp hempty, rfl⟩
      · split at h
        · cases h
        · cases h
        · exact absurd h hrespond

/-- Settles O33: the word's row is chosen first, and a decoded operation fails exactly at its checks,
the register's before its own. -/
theorem checksAreMadeInOrder : Obligations.ChecksAreMadeInOrder := by
  intro s w ws rest hlegal hhost
  refine ⟨illegalWordIsRefused s w ws rest hhost, fun i hdec => ?_⟩
  have hstep : step s = exec i (s.setHost rest) :=
    (step_command hhost).trans (runCommand_of_decode hdec _)
  rw [hstep]
  refine ⟨fun hunconf => exec_of_unconfigured hlegal hunconf, fun hconf code hfail => ?_,
    fun hconf hpass s' hexec => ?_⟩
  · obtain ⟨c, rfl, hexec⟩ := exec_of_ownCheckFails (s := s.setHost rest) hlegal hconf hfail
    exact hexec
  · obtain ⟨c, -, rfl⟩ | ⟨k, p, t, ht, rfl⟩ := exec_raises_or_responds hexec
    · obtain hunconf | ⟨code, hfail⟩ := check_fails_of_exec_raise (s := s.setHost rest) hlegal hexec
      · exact absurd hunconf hconf
      · exact absurd hfail (hpass code)
    · exact ⟨⟨okWord k, p⟩, by rw [respond_responses, ht]; rfl, errField_okWord k⟩

/-! The responses already given are no input to a step (R137). -/

/-- The same state with more responses given before its own. -/
def State.after (s : State) (earlier : List Response) : State :=
  { s with responses := earlier ++ s.responses }

@[simp] theorem State.after_snr (s : State) (earlier : List Response) :
    (s.after earlier).snr = s.snr := rfl

@[simp] theorem State.after_table (s : State) (earlier : List Response) :
    (s.after earlier).table = s.table := rfl

@[simp] theorem State.after_host (s : State) (earlier : List Response) :
    (s.after earlier).host = s.host := rfl

@[simp] theorem State.after_infoLen? (s : State) (earlier : List Response) :
    (s.after earlier).infoLen? = s.infoLen? := rfl

@[simp] theorem State.after_draws? (s : State) (earlier : List Response) (k : Nat) :
    (s.after earlier).draws? k = s.draws? k := rfl

@[simp] theorem State.after_setNcfg (s : State) (earlier : List Response) (n : BitVec 4) :
    (s.after earlier).setNcfg n = (s.setNcfg n).after earlier := rfl

@[simp] theorem State.after_setSnr (s : State) (earlier : List Response) (x : QA) :
    (s.after earlier).setSnr x = (s.setSnr x).after earlier := rfl

@[simp] theorem State.after_advanceNoise (s : State) (earlier : List Response) (k : Nat) :
    (s.after earlier).advanceNoise k = (s.advanceNoise k).after earlier := rfl

@[simp] theorem State.after_setHost (s : State) (earlier : List Response) (rest : List HostMove) :
    (s.after earlier).setHost rest = (s.setHost rest).after earlier := rfl

@[simp] theorem State.after_addResponse (s : State) (earlier : List Response) (r : Response) :
    (s.after earlier).addResponse r = (s.addResponse r).after earlier := by
  simp [State.after, State.addResponse]

@[simp] theorem respond_after (k : Nat) (p : List PayloadWord) (s : State)
    (earlier : List Response) : respond k p (s.after earlier) = (respond k p s).after earlier :=
  s.after_addResponse earlier _

@[simp] theorem raise_after (c : Cause) (s : State) (earlier : List Response) :
    raise c (s.after earlier) = (raise c s).after earlier :=
  s.after_addResponse earlier _

/-- An operation takes the same branch after any responses, stops included, and adds its own. -/
theorem exec_after (i : Instr) (s : State) (earlier : List Response) :
    exec i (s.after earlier) = mapNext (·.after earlier) (exec i s) := by
  cases i with
  | config n =>
    simp only [exec, execConfig, raise_after, respond_after, State.after_setNcfg]
    split <;> rfl
  | encode info =>
    simp only [exec, execEncode, State.after_infoLen?, raise_after, respond_after, State.after_table]
    split
    · rfl
    · split <;> rfl
  | decode llr =>
    simp only [exec, execDecode, State.after_infoLen?, raise_after, respond_after, State.after_table]
    split
    · rfl
    · split
      · rfl
      · split <;> rfl
  | modulate cw =>
    simp only [exec, execModulate, raise_after, respond_after]
    split <;> rfl
  | demodulate sym =>
    simp only [exec, execDemodulate, raise_after, respond_after]
    split
    · rfl
    · split <;> rfl
  | setsnr x =>
    simp only [exec, execSetsnr, respond_after, State.after_setSnr]
    split <;> rfl
  | apply sym =>
    simp only [exec, execApply, State.after_snr, State.after_draws?, raise_after, respond_after,
      State.after_advanceNoise]
    split
    · rfl
    · split
      · rfl
      · split <;> rfl

/-- A command has the same outcome after any responses. -/
theorem runCommand_after (c : Command) (s : State) (earlier : List Response) :
    runCommand c (s.after earlier) = mapNext (·.after earlier) (runCommand c s) := by
  simp only [runCommand, exec_after, raise_after]
  split <;> rfl

/-- A step has the same outcome after any responses. -/
theorem step_after (s : State) (earlier : List Response) :
    step (s.after earlier) = mapNext (·.after earlier) (step s) := by
  simp only [step, State.after_host, State.after_setHost, runCommand_after]
  split <;> rfl

/-- The step of a state is the step of the same state without its responses, after them. -/
theorem step_eq_mapNext_after (s : State) (given : List Response) :
    step { s with responses := given } =
      mapNext (·.after given) (step { s with responses := [] }) := by
  rw [← step_after, State.after, List.append_nil]

/-- Settles O35: the failure leaves the state as it was but for its response, and the next step is the
step of the state without its responses in both histories. -/
theorem nothingIsStickyAfterAFailure : Obligations.NothingIsStickyAfterAFailure := by
  intro s s1 c rest r hhost hstep hresp herr
  obtain ⟨r', hresp', hfail⟩ := failureLeavesStateAlone s s1 c rest hhost hstep
  obtain rfl : r = r' := List.singleton_inj.mp (List.append_cancel_left (hresp.symm.trans hresp'))
  obtain ⟨-, -, rfl⟩ := hfail herr
  rw [step_eq_mapNext_after { s with host := rest } (s.responses ++ [r]),
    step_eq_mapNext_after { s with host := rest } s.responses]
  cases step { s with host := rest, responses := [] } with
  | next t =>
    refine ⟨fun _ ht => ?_, nofun, nofun⟩
    cases ht
    exact ⟨t.responses, rfl, rfl⟩
  | fault f => exact ⟨nofun, fun _ hf => by cases hf; rfl, nofun⟩
  | refused e => exact ⟨nofun, nofun, fun _ he => by cases he; rfl⟩

end Sys2Proof.Machine

/-! Encoding and decoding of commands, and the step around them (30_encoding.md R61 to R70, 20_memory.md
R46 to R48, 70_reset_and_hazards.md R150, R151). -/

namespace Sys2Proof

/-- Settles O1: an encoded word selects its own row, and that row reads the payload back. -/
theorem decodeOfEncodeIsIdentity : Obligations.DecodeOfEncodeIsIdentity :=
  fun _ hwf => decode_word_payload hwf

/-- A word selects no row exactly when it matches none (R68). -/
theorem selectRow_error_iff_no_row_matches (w : Word) :
    (∃ e, selectRow w = .error e) ↔ ∀ op : Opcode, w &&& op.mask ≠ op.pattern := by
  refine ⟨fun ⟨_, hrow⟩ => row_mismatch_of_selectRow_error hrow, fun hnone => ?_⟩
  cases hrow : selectRow w with
  | error e => exact ⟨e, rfl⟩
  | ok op => exact absurd ((row_matches_iff w op).mpr hrow) (hnone op)

/-- Settles O5: both sides say that the word selects no row. -/
theorem illegalWordMatchesNoRow : Obligations.IllegalWordMatchesNoRow :=
  fun w => (illegalWord_iff w).trans (selectRow_error_iff_no_row_matches w)

/-- Settles O2: each word selects its row, and the row reads the words beside it. -/
theorem specWordsDecode : Obligations.SpecWordsDecode :=
  ⟨by decide, by decide, by decide, by decide, fun _ => rfl, by decide, fun _ _ => rfl, fun _ => rfl,
    fun _ _ => rfl⟩

namespace Machine

/-- Settles O6: the step takes the move and runs the decoded command. -/
theorem stepRunsDecodedCommand : Obligations.StepRunsDecodedCommand := fun _ _ _ _ hhost hdec =>
  (step_command hhost).trans (runCommand_of_decode hdec _)

/-- Settles O7: the step takes the move and clears both registers. -/
theorem stepTakesReset : Obligations.StepTakesReset := by
  intro s rest hhost
  rw [step, hhost]
  rfl

/-- A legal word beside another payload than it announces is no command (30_encoding.md R60). -/
theorem decode_of_not_payloadFits {w : Word} {op : Opcode} {ws : List PayloadWord}
    (hrow : selectRow w = .ok op) (hfits : ¬ PayloadFits op (w.extractLsb' 0 16).toNat ws) :
    decode w ws = .error .payloadShape := by
  have hread : readPayload op w ws = none :=
    Option.eq_none_iff_forall_ne_some.mpr fun i hi => hfits ((payloadFits_iff hrow).mpr ⟨i, hi⟩)
  rw [decode_of_selectRow hrow, hread]

/-- Settles O8: the step's first branch, and the decoder's last error. -/
theorem stepWithoutATransaction : Obligations.StepWithoutATransaction := by
  refine ⟨fun s hidle => by rw [step, hidle], fun s w ws rest op hhost hmatch hfits => ?_⟩
  have hdec : decode w ws = .error .payloadShape :=
    decode_of_not_payloadFits ((row_matches_iff w op).mp hmatch) hfits
  rw [step_command hhost, runCommand, hdec]

end Machine
end Sys2Proof

/-! The invariant (10_state.md R34, 30_encoding.md R62): every step keeps `NCFG` legal and every response
of the spec's form. -/

namespace Sys2Proof.Machine

/-- A failure's response is of the form R62 gives it. -/
theorem wellFormed_errResponse {c : Cause} (hc : c ≠ .iterCount) :
    (⟨errWord c, []⟩ : Response).WellFormed := by
  have hfields : (errWord c).extractLsb' 28 3 = 0 ∧ (errWord c).extractLsb' 16 8 = 0 ∧
      c.code ≠ 0 ∧ c.code ≠ 7 ∧ c.code.toNat ≤ 9 := by
    revert hc
    cases c <;> decide
  obtain ⟨hhigh, hlow, h0, h7, hle⟩ := hfields
  exact ⟨hhigh, hlow, .inl ⟨errField_errWord c, rlenField_errWord c, rfl, by
    rw [causeField_errWord]; exact ⟨h0, h7, hle⟩⟩⟩

/-- A success's word has only its low 16 bits. -/
theorem extractLsb'_okWord (k start len : Nat) (h : 16 ≤ start) :
    (okWord k).extractLsb' start len = 0 := by
  apply BitVec.eq_of_getLsbD_eq
  intro i hi
  have hbit : (BitVec.ofNat 16 k).getLsbD (start + i) = false :=
    BitVec.getLsbD_of_ge _ _ (by lia)
  simp only [okWord, BitVec.getLsbD_extractLsb', BitVec.getLsbD_setWidth, hbit]
  simp

/-- `RLEN` holds a count of at most 65535. -/
theorem rlenField_okWord_toNat {k : Nat} (hk : k ≤ 65535) : (rlenField (okWord k)).toNat = k := by
  rw [rlenField_okWord, BitVec.toNat_ofNat]
  exact Nat.mod_eq_of_lt (by lia)

/-- A success that answers `k` bits is of the form R62 gives it. -/
theorem wellFormed_bitsResponse {k : Nat} {bs : List Bool} (hlen : bs.length = k) (hk : k ≤ 65535) :
    (⟨okWord k, bitsPayload bs⟩ : Response).WellFormed := by
  refine ⟨extractLsb'_okWord _ _ _ (by decide), extractLsb'_okWord _ _ _ (by decide),
    .inr ⟨errField_okWord k, causeField_okWord k, .inl ⟨packBits bs, rfl, ?_⟩⟩⟩
  rw [rlenField_okWord_toNat hk, length_packBits, hlen]

/-- A success that answers `k` reals or `k` complex values is of the form R62 gives it. -/
theorem wellFormed_numsResponse {k : Nat} {xs : List NumWord} (hlen : xs.length = k ∨ xs.length = 2 * k)
    (hk : k ≤ 65535) : (⟨okWord k, numsPayload xs⟩ : Response).WellFormed := by
  refine ⟨extractLsb'_okWord _ _ _ (by decide), extractLsb'_okWord _ _ _ (by decide),
    .inr ⟨errField_okWord k, causeField_okWord k, .inr ⟨xs, rfl, ?_⟩⟩⟩
  rwa [rlenField_okWord_toNat hk]

/-- A success that answers `k` complex values is of the form R62 gives it. -/
theorem wellFormed_cxsResponse {k : Nat} {zs : List (Cx NumWord)} (hlen : zs.length = k)
    (hk : k ≤ 65535) : (⟨okWord k, cxsPayload zs⟩ : Response).WellFormed :=
  wellFormed_numsResponse (.inr (by rw [length_flattenCx, hlen])) hk

/-- A success without a result is of the form R62 gives it. -/
theorem wellFormed_emptyResponse : (⟨okWord 0, []⟩ : Response).WellFormed :=
  wellFormed_bitsResponse (bs := []) rfl (Nat.zero_le _)

/-- A supported length is a legal `NCFG`. -/
theorem ncfgLegal_of_ofBits? {b : BitVec 4} {n : InfoLen} (h : InfoLen.ofBits? b = some n) :
    NcfgLegal b := by
  refine .inr (by_contra fun hunsupported => ?_)
  rw [InfoLen.ofBits?_eq_none.mpr hunsupported] at h
  cases h

/-- A state keeps the invariant when its `NCFG` is legal and it adds one well-formed response. -/
theorem State.Inv.add {s s' : State} {r : Response} (hinv : s.Inv) (hncfg : NcfgLegal s'.ncfg)
    (hresp : s'.responses = s.responses ++ [r]) (hr : r.WellFormed) : s'.Inv := by
  refine ⟨hncfg, fun q hq => ?_⟩
  rw [hresp] at hq
  obtain hq | hq := List.mem_append.mp hq
  · exact hinv.2 q hq
  · exact List.mem_singleton.mp hq ▸ hr

/-- Every command a command word can express keeps the invariant. -/
theorem exec_keeps_inv {i : Instr} {s s' : State} (hwf : WellFormed i) (hinv : s.Inv)
    (h : exec i s = .next s') : s'.Inv := by
  obtain ⟨c, hc, rfl⟩ | ⟨n, m, -, hn, rfl⟩ | ⟨info, n, -, -, -, rfl⟩ | ⟨llr, ls, n, -, -, -, -, rfl⟩ |
    ⟨cw, -, hlen, rfl⟩ | ⟨sym, zs, -, hlen, hfin, rfl⟩ | ⟨v, -, rfl⟩ |
    ⟨sym, zs, x, draws, rfl, -, -, hfin, hdraws, rfl⟩ := exec_next_cases h
  · exact hinv.add hinv.1 rfl
      (wellFormed_errResponse (ne_of_mem_of_not_mem hc (iterCount_notMem_causes _)))
  · exact hinv.add (ncfgLegal_of_ofBits? hn) rfl wellFormed_emptyResponse
  · exact hinv.add hinv.1 rfl (wellFormed_bitsResponse (length_encodeVector ..) (by decide))
  · obtain ⟨-, hle⟩ := n.toNat_le
    exact hinv.add hinv.1 rfl (wellFormed_bitsResponse (length_u2bits ..) (by lia))
  · have hsym : ((mapSymbols cw).map realCx).length = 10 := by
      rw [List.length_map, length_mapSymbols, hlen]
    exact hinv.add hinv.1 rfl (wellFormed_cxsResponse hsym (by decide))
  · have hllr : ((flattenCx zs).map NumWord.real).length = 20 := by
      rw [List.length_map, length_flattenCx, length_of_finiteCxs? hfin, hlen]
    exact hinv.add hinv.1 rfl (wellFormed_numsResponse (.inl hllr) (by decide))
  · exact hinv.add hinv.1 rfl wellFormed_emptyResponse
  · have hzs : zs.length = sym.length := length_of_finiteCxs? hfin
    have hdraws : draws.length = 2 * zs.length := by rw [(State.draws?_spec hdraws).1, hzs]
    have hout : ((noisyCopy x zs draws).map realCx).length = sym.length := by
      rw [List.length_map, length_noisyCopy hdraws, hzs]
    exact hinv.add hinv.1 rfl (wellFormed_cxsResponse hout hwf)

/-- Settles O39: an idle step and a reset give no response, an illegal word gives a failure, and a
decoded command has at most 65535 elements. -/
theorem everyStepKeepsTheInvariant : Obligations.EveryStepKeepsTheInvariant := by
  intro s s' hinv hstep
  obtain ⟨-, rfl⟩ | ⟨rest, -, rfl⟩ | ⟨c, rest, -, ⟨-, rfl⟩ | ⟨i, hdec, hexec⟩⟩ := step_next_cases hstep
  · exact hinv
  · exact ⟨.inl rfl, hinv.2⟩
  · exact hinv.add hinv.1 rfl (wellFormed_errResponse nofun)
  · have hinv' : (s.setHost rest).Inv := hinv
    exact exec_keeps_inv (wellFormed_of_decode hdec) hinv' hexec

/-- Settles O40: `NCFG` is `NONE` and no response has been given. -/
theorem resetSatisfiesTheInvariant : Obligations.ResetSatisfiesTheInvariant :=
  ⟨.inl rfl, fun _ hr => absurd hr List.not_mem_nil⟩

end Sys2Proof.Machine

/-! What an operation may raise, what it may write, and how a run answers its commands
(60_exceptions.md R131, R132; 10_state.md R20, R26, R27, R30; 20_memory.md R48). -/

namespace Sys2Proof.Machine

/-- Settles O36: a response with `ERR = 1` is that of `raise`, whose `CAUSE` is the code of one of the
operation's causes. -/
theorem operationsRaiseOnlyTheirCauses : Obligations.OperationsRaiseOnlyTheirCauses := by
  intro i s s' r hexec hresp herr
  obtain ⟨c, hc, rfl⟩ | ⟨k, p, t, ht, rfl⟩ := exec_raises_or_responds hexec
  · obtain rfl : r = ⟨errWord c, []⟩ :=
      (List.singleton_inj.mp (List.append_cancel_left hresp)).symm
    have hcode : (errWord c).extractLsb' 24 4 = c.code := causeField_errWord c
    rw [hcode]
    generalize i.opcode = op at hc ⊢
    clear * - hc
    revert c
    cases op <;> decide
  · rw [respond_responses, ht] at hresp
    obtain rfl : r = ⟨okWord k, p⟩ := (List.singleton_inj.mp (List.append_cancel_left hresp)).symm
    exact absurd ((errField_okWord k).symm.trans herr) nofun

/-- Settles O37: the frame of each way an operation can end. -/
theorem operationsWriteOnlyTheirRegister : Obligations.OperationsWriteOnlyTheirRegister := by
  intro i s s' hexec
  obtain ⟨_, -, rfl⟩ | ⟨_, _, rfl, -, rfl⟩ | ⟨_, _, -, -, -, rfl⟩ | ⟨_, _, _, -, -, -, -, rfl⟩ |
    ⟨_, -, -, rfl⟩ | ⟨_, _, -, -, -, rfl⟩ | ⟨_, rfl, rfl⟩ | ⟨_, _, _, _, rfl, -, -, -, -, rfl⟩ :=
    exec_next_cases hexec
  case inr.inl =>
    exact ⟨rfl, rfl, ⟨_, rfl⟩, fun h => absurd rfl h, fun _ => rfl, fun _ => ⟨rfl, rfl⟩, .inl ⟨rfl, rfl⟩⟩
  case inr.inr.inr.inr.inr.inr.inl =>
    exact ⟨rfl, rfl, ⟨_, rfl⟩, fun _ => rfl, fun h => absurd rfl h, fun _ => ⟨rfl, rfl⟩, .inl ⟨rfl, rfl⟩⟩
  case inr.inr.inr.inr.inr.inr.inr =>
    exact ⟨rfl, rfl, ⟨_, rfl⟩, fun _ => rfl, fun _ => rfl, fun h => absurd rfl h, .inr ⟨rfl, rfl⟩⟩
  all_goals
    exact ⟨rfl, rfl, ⟨_, rfl⟩, fun _ => rfl, fun _ => rfl, fun _ => ⟨rfl, rfl⟩, .inl ⟨rfl, rfl⟩⟩

/-- A step on a command takes the move, leaves the table alone and gives one response. -/
theorem step_command_frame {s s' : State} {c : Command} {rest : List HostMove}
    (hhost : s.host = .command c :: rest) (h : step s = .next s') :
    s'.host = rest ∧ s'.table = s.table ∧ ∃ r, s'.responses = s.responses ++ [r] := by
  obtain ⟨hnil, -⟩ | ⟨_, hreset, -⟩ | ⟨c', rest', hcommand, hrun⟩ := step_next_cases h
  · cases hhost.symm.trans hnil
  · cases hhost.symm.trans hreset
  · cases hhost.symm.trans hcommand
    obtain ⟨-, rfl⟩ | ⟨i, -, hexec⟩ := hrun
    · exact ⟨rfl, rfl, _, rfl⟩
    · obtain ⟨htable, hhost', hresp, -⟩ := operationsWriteOnlyTheirRegister i _ s' hexec
      exact ⟨hhost', htable, hresp⟩

/-- A run of one more step is a step and the run after it. -/
theorem run_succ_eq_next {k : Nat} {s s' : State} (h : core.run (k + 1) s = .next s') :
    ∃ t, step s = .next t ∧ core.run k t = .next s' := by
  simp only [Host.Core.run] at h
  split at h
  · exact ⟨_, ‹_›, h⟩
  · cases h
  · cases h

/-- Settles O41, by induction on the commands. -/
theorem runsAnswerEachCommandOnce : Obligations.RunsAnswerEachCommandOnce := by
  intro cs
  induction cs with
  | nil =>
    intro s s' rest hhost hrun
    cases hrun
    exact ⟨hhost, rfl, [], rfl, (List.append_nil _).symm⟩
  | cons c cs ih =>
    intro s s' rest hhost hrun
    obtain ⟨t, hstep, hrun⟩ := run_succ_eq_next hrun
    obtain ⟨hhost', htable, r, hresp⟩ := step_command_frame hhost hstep
    obtain ⟨hrest, htable', rs, hlen, hresp'⟩ := ih t s' rest hhost' hrun
    refine ⟨hrest, htable'.trans htable, r :: rs, congrArg Nat.succ hlen, ?_⟩
    rw [hresp', hresp, List.append_assoc, List.singleton_append]

end Sys2Proof.Machine

/-! CONFIG and ENCODE (40_block_encoder.md R81, R84): what each argument answers, and the codeword's one
word, bit by bit. -/

namespace Sys2Proof

/-- The XOR of a finite family of bits is its parity, counted as a set. -/
theorem xorAll_map_finRange_eq_parity {m : Nat} (f : Fin m → Bool) :
    xorAll ((List.finRange m).map f) =
      decide ((Finset.univ.filter fun j => f j = true).card % 2 = 1) := by
  have hcount : ((List.finRange m).map f).count true =
      (Finset.univ.filter fun j => f j = true).card := by
    rw [List.count, List.countP_map, List.countP_eq_length_filter]
    change _ = (List.filter (fun j => decide (f j = true)) (List.finRange m)).length
    simp only [Function.comp_def, beq_true, Bool.decide_eq_true]
  rw [xorAll_eq_parity, hcount]

/-- A codeword bit is the parity of the columns that the vector selects and the row holds (R84). -/
theorem codewordBit_eq_parity (t : CodeTable) {n : InfoLen} {info : List Bool}
    (hlen : info.length = n.toNat) (i : Fin 20) : codewordBit t n info i =
      decide ((Finset.univ.filter fun j : Fin 13 =>
        j.val < n.toNat ∧ info[j.val]? = some true ∧ tblRead t i j = true).card % 2 = 1) := by
  have hterm (j : Fin 13) : ((info[j.val]?).getD false && tblRead t i j) = true ↔
      j.val < n.toNat ∧ info[j.val]? = some true ∧ tblRead t i j = true := by
    by_cases hj : j.val < n.toNat <;> simp [hj, hlen]
  rw [codewordBit_eq_xorAll_columns t hlen, xorAll_map_finRange_eq_parity]
  simp only [hterm]

/-- Bit `k` of the word of at most 32 elements is element `k`, and the pad bits are 0
(30_encoding.md R64). -/
theorem getLsbD_ofNat_bits2u {bs : List Bool} (hlen : bs.length ≤ 32) (k : Nat) :
    (BitVec.ofNat 32 (bits2u bs)).getLsbD k = (bs[k]?).getD false := by
  rw [BitVec.getLsbD_ofNat, testBit_bits2u]
  by_cases hk : k < 32
  · simp [hk]
  · simp [hk, show bs.length ≤ k by lia]

namespace Machine

/-- Settles O10: the argument is a supported length, and CONFIG writes it. -/
theorem configWritesSupportedLength : Obligations.ConfigWritesSupportedLength := by
  intro s n hn
  obtain ⟨m, hm⟩ : ∃ m, InfoLen.ofBits? n = some m :=
    Option.ne_none_iff_exists'.mp fun hnone => InfoLen.ofBits?_eq_none.mp hnone hn
  exact exec_config_supported (InfoLen.ofBits?_eq_some.mp hm) s

/-- CONFIG of an unsupported length (R81). -/
theorem exec_config_unsupported {n : BitVec 4} (hn : ¬ (n = 2 ∨ n = 4 ∨ n = 6 ∨ n = 8 ∨ n = 11))
    (s : State) : exec (.config n) s = .next (raise .unsupportedN s) := by
  rw [exec, execConfig, InfoLen.ofBits?_eq_none.mpr hn]

/-- Settles O11: the argument names no supported length, and the failure's word is written out. -/
theorem configRefusesUnsupportedLength : Obligations.ConfigRefusesUnsupportedLength :=
  fun s _ hn => exec_config_unsupported hn s

/-- Settles O12: the codeword is one word, and each of its bits is a parity. -/
theorem encodeMultipliesGeneratorMatrix : Obligations.EncodeMultipliesGeneratorMatrix := by
  intro s n info hcfg hlen
  have hcw : (encodeVector s.table n info).length = 20 := length_encodeVector ..
  have hword : bitsPayload (encodeVector s.table n info) =
      [.bits (BitVec.ofNat 32 (bits2u (encodeVector s.table n info)))] := by
    rw [bitsPayload, packBits_single (List.ne_nil_of_length_pos (by lia)) (by lia), List.map_singleton]
  refine ⟨BitVec.ofNat 32 (bits2u (encodeVector s.table n info)), ?_, fun i => ?_, fun k hk => ?_⟩
  · rw [exec_encode_of_length_eq hcfg hlen, hword]
    rfl
  · rw [getLsbD_ofNat_bits2u (by lia), List.getElem?_eq_getElem (by lia),
      encodeVector_getElem _ _ _ _ i.isLt]
    exact codewordBit_eq_parity s.table hlen i
  · rw [getLsbD_ofNat_bits2u (by lia), List.getElem?_eq_none (by lia)]
    rfl

end Machine
end Sys2Proof

/-! The decoder's answer for three kinds of input (41_ml_decoder.md R94 to R96): no positive value, a
common positive factor, and the two levels of a transmitted codeword. -/

namespace Sys2Proof

/-- Without a positive value no metric exceeds 0 (R94). -/
theorem realMetric_nonpos (t : CodeTable) (n : InfoLen) {ls : List QA} (hneg : ∀ x ∈ ls, x.toReal ≤ 0)
    (c : Nat) : realMetric t n ls c ≤ 0 := by
  refine Finset.sum_nonpos fun i _ => ?_
  have hvalue : (ls.getD i QA.zero).toReal ≤ 0 := by
    by_cases hi : i.val < ls.length
    · rw [List.getD_eq_getElem _ _ hi]
      exact hneg _ (List.getElem_mem hi)
    · rw [List.getD_eq_default _ _ (not_lt.mp hi), QA.toReal_zero]
  split
  · exact hvalue
  · exact le_rfl

/-- A common factor on every value is a factor on every metric (R96). -/
theorem realMetric_map_mul (t : CodeTable) (n : InfoLen) (ls : List QA) (k : QA) (c : Nat) :
    realMetric t n (ls.map (·.mul k)) c = realMetric t n ls c * k.toReal := by
  rw [realMetric, realMetric, Finset.sum_mul]
  refine Finset.sum_congr rfl fun i _ => ?_
  have hvalue : ((ls.map (·.mul k)).getD i QA.zero).toReal = (ls.getD i QA.zero).toReal * k.toReal := by
    by_cases hi : i.val < ls.length <;> simp [List.getD_eq_getElem?_getD, hi]
  split
  · exact hvalue
  · exact (zero_mul _).symm

/-- A common positive factor leaves the first maximum where it is (R96). -/
theorem bestCandidate_map_mul (t : CodeTable) (n : InfoLen) {ls : List QA} (hlen : ls.length = 20)
    {k : QA} (hk : 0 < k.toReal) :
    bestCandidate t n (ls.map (·.mul k)) = bestCandidate t n ls := by
  obtain ⟨hlt, hmax, hfirst⟩ := bestCandidate_spec t n ls
  simp only [toReal_metric t n hlen] at hmax hfirst
  refine bestCandidate_unique (by rw [List.length_map, hlen]) hlt (fun c hc => ?_) fun c hc => ?_
  · rw [realMetric_map_mul, realMetric_map_mul]
    exact mul_le_mul_of_nonneg_right (hmax c hc) hk.le
  · rw [realMetric_map_mul, realMetric_map_mul]
    exact mul_lt_mul_of_pos_right (hfirst c hc) hk

/-- The values of a codeword received as two levels: `p` for a 1 and `q` for a 0 (R95). -/
def levels (p q : QA) (x : List Bool) : List QA := x.map fun b => if b then p else q

/-- A sum over selected positions, by how many of them have each level. -/
theorem sum_selected_levels (l : List (Bool × Bool)) (p q : ℝ) :
    (l.map fun e => if e.1 then (if e.2 then p else q) else 0).sum =
      p * (l.count (true, true) : ℕ) + q * (l.count (true, false) : ℕ) := by
  induction l with
  | nil => simp
  | cons e l ih =>
    obtain ⟨_ | _, _ | _⟩ := e <;> simp [ih] <;> ring

/-- The metric of a candidate with codeword `y` when `x` is received as two levels (R95). -/
theorem realMetric_levels (t : CodeTable) (n : InfoLen) (p q : QA) {x : List Bool}
    (hx : x.length = 20) (c : Nat) : realMetric t n (levels p q x) c =
      p.toReal * (((encodeVector t n (u2bits n.toNat c)).zip x).count (true, true) : ℕ) +
      q.toReal * (((encodeVector t n (u2bits n.toNat c)).zip x).count (true, false) : ℕ) := by
  have hlen : (levels p q x).length = 20 := (List.length_map _).trans hx
  rw [← toReal_metric t n hlen, metric, toReal_correlate, levels, List.zip_map_right, List.map_map,
    ← sum_selected_levels]
  refine congrArg List.sum (List.map_congr_left fun e _ => ?_)
  obtain ⟨_ | _, _ | _⟩ := e <;> rfl

/-- The ones of `x` are those that `y` shares and those that it misses. -/
theorem count_true_eq_zip {y x : List Bool} (hlen : y.length = x.length) :
    x.count true = (y.zip x).count (true, true) + (y.zip x).count (false, true) := by
  induction y generalizing x with
  | nil => simp [List.length_eq_zero_iff.mp hlen.symm]
  | cons a y ih =>
    cases x with
    | nil => cases hlen
    | cons b x => cases a <;> cases b <;> simp [ih (Nat.succ.inj hlen)] <;> lia

/-- Two vectors are equal when neither has a 1 where the other has a 0. -/
theorem eq_iff_zip_counts {y x : List Bool} (hlen : y.length = x.length) :
    y = x ↔ (y.zip x).count (true, false) = 0 ∧ (y.zip x).count (false, true) = 0 := by
  induction y generalizing x with
  | nil => simp [List.length_eq_zero_iff.mp hlen.symm]
  | cons a y ih =>
    cases x with
    | nil => cases hlen
    | cons b x => cases a <;> cases b <;> simp [ih (Nat.succ.inj hlen)]

/-- With a positive and a negative level the transmitted codeword has the greatest metric there is, and
no other codeword has it (R95). -/
theorem realMetric_levels_le (t : CodeTable) (n : InfoLen) {p q : QA} (hp : 0 < p.toReal)
    (hq : q.toReal < 0) {x : List Bool} (hx : x.length = 20) (c : Nat) :
    realMetric t n (levels p q x) c ≤ p.toReal * (x.count true : ℕ) ∧
    (realMetric t n (levels p q x) c = p.toReal * (x.count true : ℕ) ↔
      encodeVector t n (u2bits n.toNat c) = x) := by
  have hlen : (encodeVector t n (u2bits n.toNat c)).length = x.length := by
    rw [length_encodeVector, hx]
  rw [realMetric_levels t n p q hx, count_true_eq_zip hlen, eq_iff_zip_counts hlen]
  generalize (encodeVector t n (u2bits n.toNat c)).zip x = pairs
  generalize pairs.count (true, true) = shared
  generalize pairs.count (true, false) = extra
  generalize pairs.count (false, true) = missed
  have hmissed : 0 ≤ p.toReal * missed := mul_nonneg hp.le (Nat.cast_nonneg _)
  have hextra : q.toReal * extra ≤ 0 := mul_nonpos_of_nonpos_of_nonneg hq.le (Nat.cast_nonneg _)
  push_cast
  refine ⟨by linarith, fun heq => ?_, ?_⟩
  · have hm : p.toReal * missed = 0 := by linarith
    have he : q.toReal * extra = 0 := by linarith
    exact ⟨by simpa [hq.ne] using he, by simpa [hp.ne'] using hm⟩
  · rintro ⟨rfl, rfl⟩
    simp

/-- The search answers the smallest candidate with the codeword that is received as two levels (R95). -/
theorem bestCandidate_levels (t : CodeTable) (n : InfoLen) {p q : QA} (hp : 0 < p.toReal)
    (hq : q.toReal < 0) {v x : List Bool} (hv : v.length = n.toNat) (hx : encodeVector t n v = x) :
    encodeVector t n (u2bits n.toNat (bestCandidate t n (levels p q x))) = x ∧
    ∀ c, c < bestCandidate t n (levels p q x) → encodeVector t n (u2bits n.toNat c) ≠ x := by
  have hlen : x.length = 20 := hx ▸ length_encodeVector ..
  have hlevels : (levels p q x).length = 20 := (List.length_map _).trans hlen
  obtain ⟨-, hmax, hfirst⟩ := bestCandidate_spec t n (levels p q x)
  simp only [toReal_metric t n hlevels] at hmax hfirst
  have hsent : realMetric t n (levels p q x) (bits2u v) = p.toReal * (x.count true : ℕ) :=
    (realMetric_levels_le t n hp hq hlen _).2.mpr (by rw [← hv, u2bits_bits2u, hx])
  obtain ⟨hle, hiff⟩ := realMetric_levels_le t n hp hq hlen (bestCandidate t n (levels p q x))
  have hbest := le_antisymm hle (hsent ▸ hmax _ (hv ▸ bits2u_lt v))
  refine ⟨hiff.mp hbest, fun c hc heq => ?_⟩
  have hlt := hfirst c hc
  rw [hbest, (realMetric_levels_le t n hp hq hlen c).2.mpr heq] at hlt
  exact lt_irrefl _ hlt

namespace Machine

/-- Settles O18: candidate 0 has metric 0, which no other candidate exceeds. -/
theorem decodeWithoutPositiveEvidenceIsZero : Obligations.DecodeWithoutPositiveEvidenceIsZero := by
  intro s n ls hcfg hlen hneg
  have hbest : bestCandidate s.table n ls = 0 :=
    bestCandidate_unique hlen (by positivity)
      (fun c _ => (realMetric_nonpos _ _ hneg c).trans_eq (realMetric_zero _ _ _).symm)
      fun c hc => absurd hc (Nat.not_lt_zero c)
  rw [exec_decode_real hcfg hlen, hbest]

/-- Settles O19: both inputs have the same first maximum. -/
theorem decodeIgnoresPositiveScale : Obligations.DecodeIgnoresPositiveScale := by
  intro s n ls k hcfg hlen hk
  have hscaled : (ls.map (·.mul k)).length = 20 := (List.length_map _).trans hlen
  refine ⟨_, exec_decode_real hcfg hlen, ?_⟩
  calc exec (.decode (ls.map fun x => .real (x.mul k))) s
      = exec (.decode ((ls.map (·.mul k)).map .real)) s := by rw [List.map_map]; rfl
    _ = _ := by rw [exec_decode_real hcfg hscaled, bestCandidate_map_mul _ _ hlen hk]

/-- Settles O20: the received values are the two levels `k` and `-k`. -/
theorem transmittedCandidateIsMaximal : Obligations.TransmittedCandidateIsMaximal := by
  intro s n t c k hcfg ht hc hk x y ls
  have hx : x.length = 20 := length_encodeVector ..
  have hls : ls.length = 20 := (List.length_map _).trans hx
  have hneg : k.neg.toReal < 0 := by rw [QA.toReal_neg]; exact neg_neg_of_pos hk
  obtain ⟨hle, hiff⟩ := realMetric_levels_le s.table n hk hneg hx c
  obtain ⟨hbest, hfirst⟩ := bestCandidate_levels s.table n hk hneg (length_u2bits n.toNat t) rfl
  obtain ⟨hlt, -, -⟩ := bestCandidate_spec s.table n ls
  refine ⟨?_, hle, hiff, _, hlt, hbest, hfirst, exec_decode_real hcfg hls⟩
  refine (realMetric_levels s.table n k k.neg hx c).trans ?_
  rw [QA.toReal_neg, neg_mul, ← sub_eq_add_neg, ← mul_sub]

end Machine
end Sys2Proof

/-! MODULATE and DEMODULATE, value by value (42_qpsk_mapper.md R100 to R102). -/

namespace Sys2Proof

/-- The words of finite complex values, real before imaginary (30_encoding.md R66). -/
theorem cxsPayload_realCx (zs : List (Cx QA)) :
    cxsPayload (zs.map realCx) = (flattenCx zs).map fun x => .num (.real x) := by
  have hflat : flattenCx (zs.map realCx) = (flattenCx zs).map NumWord.real :=
    (map_flattenCx NumWord.real zs).symm
  rw [cxsPayload, numsPayload, hflat, List.map_map]
  rfl

/-- Equal pairs hold one value twice as often. -/
theorem flattenCx_replicate {α : Type} (k : Nat) (a : α) :
    flattenCx (List.replicate k ⟨a, a⟩) = List.replicate (2 * k) a := by
  induction k with
  | zero => rfl
  | succ k ih => rw [List.replicate_succ, flattenCx, ih]; rfl

/-- The axis values as pairs of rationals (R100). -/
theorem axis_eq (b : Bool) : axis b = if b then ⟨0, 1⟩ else ⟨0, -1⟩ := by
  cases b <;> simp [axis, QA.constA, QA.neg]

namespace Machine

/-- Settles O22: the two axis values as reals, and the words of the mapped symbols. -/
theorem modulateMapsBitsToAxes : Obligations.ModulateMapsBitsToAxes := by
  refine ⟨QA.toReal_constA, by simp [QA.toReal], fun s cw hlen => ?_⟩
  rw [exec_modulate_of_length_eq hlen, cxsPayload_realCx, flattenCx_mapSymbols cw (by rw [hlen]),
    List.map_map]
  simp only [Function.comp_def, axis_eq]
  rfl

/-- Settles O23: MODULATE's length check, the failure's word written out. -/
theorem modulateRefusesWrongLength : Obligations.ModulateRefusesWrongLength :=
  fun s _ hlen => exec_modulate_of_length_ne hlen s

/-- Settles O24: the values are the symbols' parts in payload order. -/
theorem demodulateCopiesParts : Obligations.DemodulateCopiesParts := by
  intro s zs hlen
  have hsym : (zs.map realCx).length = 10 := (List.length_map _).trans hlen
  refine ⟨flattenCx zs, ?_, by rw [length_flattenCx, hlen], fun k z hz => ?_⟩
  · rw [exec_demodulate_of_finite hsym (finiteCxs?_realCx zs), numsPayload, List.map_map]
    rfl
  · obtain ⟨hre, him⟩ := flattenCx_getElem? zs k
    rw [hre, him, hz]
    exact ⟨rfl, rfl⟩

/-- Settles O25: DEMODULATE's length check, the failure's word written out. -/
theorem demodulateRefusesWrongLength : Obligations.DemodulateRefusesWrongLength :=
  fun s _ hlen => exec_demodulate_of_length_ne hlen s

end Machine
end Sys2Proof

/-! SETSNR and APPLY (43_awgn_channel.md R111 to R116): the draws a symbol takes, the calibration, and the
values that are refused (93_implementation_defined.md U4). -/

namespace Sys2Proof

/-- The noise power at `10 z` decibels (R113). -/
theorem toReal_noisePower_ten_mul (p : QA) (z : ℤ) :
    (noisePower p (QA.ofRat (10 * z))).toReal = p.toReal / (10 : ℝ) ^ z := by
  have hexponent : (QA.ofRat (10 * z)).div (QA.ofRat 10) = QA.ofRat z :=
    QA.toReal_injective (by rw [QA.toReal_div]; simp)
  rw [noisePower, QA.toReal_div, hexponent, QA.toReal_pow10_int]

/-- The deviation is the root of half the noise power wherever that root is in `NUM` (R113). -/
theorem noiseDeviation_eq_of_sq {x r : QA} {zs : List (Cx QA)} (hr : 0 ≤ r.toReal)
    (hsq : r.toReal * r.toReal = (noisePower (signalPower zs) x).toReal / 2) :
    noiseDeviation x zs = r :=
  QA.sqrt_of_sq hr (by rw [hsq, QA.toReal_div, QA.toReal_ofRat]; norm_num)

/-- A sequence of zeros has no power (R115). -/
theorem realPower_replicate_zero (k : Nat) : realPower (List.replicate k ⟨QA.zero, QA.zero⟩) = 0 := by
  simp [realPower]

/-- Zero signal power gives the deviation 0 at every SNR (R115). -/
theorem noiseDeviation_replicate_zero (x : QA) (k : Nat) :
    noiseDeviation x (List.replicate k ⟨QA.zero, QA.zero⟩) = QA.zero := by
  refine noiseDeviation_eq_of_sq QA.toReal_zero.ge ?_
  rw [noisePower, QA.toReal_div, toReal_signalPower, realPower_replicate_zero, QA.toReal_zero]
  simp

/-- With the deviation 0 a symbol keeps its value whatever its draws are (R114). -/
theorem addNoise_zero (z g : Cx QA) : addNoise QA.zero z g = z := by
  have hpart (a b : QA) : a.add (QA.zero.mul b) = a := QA.toReal_injective (by simp)
  simp only [addNoise, hpart]

/-- With the deviation 0 the noisy copy is the input whatever the draws are (R114). -/
theorem noisyCopy_of_deviation_zero {x : QA} {zs : List (Cx QA)} {draws : List QA}
    (hdev : noiseDeviation x zs = QA.zero) (hlen : draws.length = 2 * zs.length) :
    noisyCopy x zs draws = zs := by
  apply List.ext_getElem?
  intro k
  cases hk : zs[k]? with
  | none =>
    rw [List.getElem?_eq_none_iff] at hk ⊢
    rwa [length_noisyCopy hlen]
  | some z => rw [noisyCopy_getElem? hlen hk, hdev, addNoise_zero]

/-- A list of values with one missing is not complete. -/
theorem allSome_eq_none {α : Type} {l : List (Option α)} (h : none ∈ l) : allSome l = none := by
  refine Option.eq_none_iff_forall_ne_some.mpr fun r hr => ?_
  rw [allSome_eq_some.mp hr] at h
  simp at h

/-- A real payload with a word that is no finite real has no values (U4). -/
theorem finiteReals?_eq_none {xs : List NumWord} (h : .nonFinite ∈ xs) : finiteReals? xs = none :=
  allSome_eq_none (List.mem_map.mpr ⟨.nonFinite, h, rfl⟩)

/-- A complex payload with a part that is no finite real has no values (U4). -/
theorem finiteCxs?_eq_none {zs : List (Cx NumWord)} {z : Cx NumWord} (hz : z ∈ zs)
    (h : z.re = .nonFinite ∨ z.im = .nonFinite) : finiteCxs? zs = none := by
  refine allSome_eq_none (List.mem_map.mpr ⟨z, hz, ?_⟩)
  rw [finiteCx?]
  obtain h | h := h
  · simp [h, NumWord.finite?]
  · cases hre : z.re.finite? <;> simp [h, NumWord.finite?]

namespace Machine

/-- A connected draw that is no finite real leaves the draws without values (U4). -/
theorem State.draws?_eq_none {s : State} {i k : Nat} (hi : i < k)
    (h : s.noise[i]? = some .nonFinite) : s.draws? k = none := by
  refine allSome_eq_none (List.mem_map.mpr ⟨i, List.mem_range.mpr hi, ?_⟩)
  rw [State.draw?, h]
  rfl

/-- Settles O28: a finite real is stored. -/
theorem setsnrStoresAnyFiniteReal : Obligations.SetsnrStoresAnyFiniteReal := fun _ _ => rfl

/-- Settles O29: the draws by their number, and the noisy copy symbol by symbol. -/
theorem applyAddsScaledDraws : Obligations.ApplyAddsScaledDraws := by
  intro s x zs hsnr hne hlen hnoise
  obtain ⟨draws, hdraws⟩ := State.draws?_isSome hnoise
  obtain ⟨hcount, hdraw⟩ := State.draws?_spec hdraws
  refine ⟨fun i => draws.getD i QA.zero, noisyCopy x zs draws, fun i hi => ?_, ?_,
    length_noisyCopy hcount, fun k z hz => ⟨_, noisyCopy_getElem? hcount hz, by simp [addNoise],
      by simp [addNoise]⟩⟩
  · have hi' : i < draws.length := hcount ▸ hi
    beta_reduce
    rw [List.getD_eq_getElem _ _ hi']
    exact State.draw?_cases s i (hdraw i hi')
  · rw [exec_apply_real hsnr hne hdraws, cxsPayload_realCx, ← okWord_eq hlen]
    rfl

/-- Settles O30: each value of R113 read as a real. -/
theorem calibrationIsExactInNum : Obligations.CalibrationIsExactInNum := by
  intro zs z
  have hnoise : (noisePower (signalPower zs) (QA.ofRat (10 * z))).toReal =
      realPower zs / (10 : ℝ) ^ z := by
    rw [toReal_noisePower_ten_mul, toReal_signalPower]
  refine ⟨toReal_signalPower zs, hnoise, fun x => QA.sqrt_nonneg _, fun r hr => ?_⟩
  have hpower : 0 ≤ realPower zs := by
    refine div_nonneg (List.sum_nonneg fun y hy => ?_) (Nat.cast_nonneg _)
    obtain ⟨w, -, rfl⟩ := List.mem_map.mp hy
    positivity
  refine noiseDeviation_eq_of_sq (hr ▸ Real.sqrt_nonneg _) ?_
  rw [hr, hnoise, Real.mul_self_sqrt (by positivity)]

/-- Settles O31: the deviation is 0, so the noisy copy is the input. -/
theorem applyOnZeroPowerCopiesInput : Obligations.ApplyOnZeroPowerCopiesInput := by
  intro s x k hsnr hpos hle hnoise
  have hlen : (List.replicate k (⟨QA.zero, QA.zero⟩ : Cx QA)).length = k := List.length_replicate
  have hne : List.replicate k (⟨QA.zero, QA.zero⟩ : Cx QA) ≠ [] := by simp [hpos.ne']
  obtain ⟨draws, hdraws⟩ := State.draws?_isSome hnoise
  have hcount : draws.length = 2 * (List.replicate k (⟨QA.zero, QA.zero⟩ : Cx QA)).length := by
    rw [hlen, (State.draws?_spec hdraws).1]
  have hexec := exec_apply_real hsnr hne (by rw [hlen]; exact hdraws)
  rw [noisyCopy_of_deviation_zero (noiseDeviation_replicate_zero x k) hcount, cxsPayload_realCx,
    flattenCx_replicate, List.map_replicate, List.map_replicate, hlen] at hexec
  rw [← okWord_eq hle]
  exact hexec

/-- APPLY of no symbols, once `SNR` is set (R112). -/
theorem exec_apply_nil {s : State} {x : QA} (hsnr : s.snr = some x) :
    exec (.apply []) s = .next (raise .emptyInput s) := by
  rw [exec, execApply, hsnr]
  rfl

/-- Settles O32: the second check of APPLY, the failure's word written out. -/
theorem applyRefusesEmptyInput : Obligations.ApplyRefusesEmptyInput :=
  fun _ _ hsnr => exec_apply_nil hsnr

/-- Settles O42: the branch of each operation that its checks leave. -/
theorem nonFiniteValuesAreRefused : Obligations.NonFiniteValuesAreRefused := by
  refine ⟨fun _ => rfl, fun s n llr hcfg hlen hmem => ?_, fun s sym z hlen hz hpart => ?_,
    fun s x sym z hsnr hz hpart => ?_, fun s x zs i hsnr hi hdraw => ?_⟩
  · have hlen' : ¬ llr.length ≠ Config.cwLen := not_not.mpr hlen
    simp only [exec, execDecode, State.infoLen?_eq_some.mpr hcfg, if_neg hlen',
      finiteReals?_eq_none hmem]
  · exact exec_demodulate_of_nonFinite hlen (finiteCxs?_eq_none hz hpart) s
  · have hne : ¬ sym.isEmpty = true := fun h => List.ne_nil_of_mem hz (List.isEmpty_iff.mp h)
    simp only [exec, execApply, hsnr, if_neg hne, finiteCxs?_eq_none hz hpart]
  · have hne : ¬ (zs.map realCx).isEmpty = true := by
      rw [List.isEmpty_map, List.isEmpty_iff]
      rintro rfl
      exact absurd hi (Nat.not_lt_zero i)
    have hdraws : s.draws? (2 * (zs.map realCx).length) = none := by
      rw [List.length_map]
      exact State.draws?_eq_none hi hdraw
    simp only [exec, execApply, hsnr, if_neg hne, finiteCxs?_realCx, hdraws]

end Machine
end Sys2Proof

/-! The text of a complex value, read (44_host_composites.md R128): what a text that parses looks like, and
which characters a number has. -/

namespace Sys2Proof.HostProc

/-- The characters a number can have beside its digits (R128; log 13, 19). -/
def numberMarks : List Char := ['.', '+', '-', 'e', 'E']

theorem isSign_eq_true {c : Char} : isSign c = true ↔ c = '+' ∨ c = '-' := by simp [isSign]

theorem isSign_eq_false {c : Char} : isSign c = false ↔ c ≠ '+' ∧ c ≠ '-' := by simp [isSign]

theorem isSign_of_mark {c : Char} (h : isSign c = true) : c ∈ numberMarks := by
  obtain rfl | rfl := isSign_eq_true.mp h <;> decide

/-- The first element that `dropWhile` keeps does not meet the condition. -/
theorem head_of_dropWhile_eq_cons {p : Char → Bool} {t r : List Char} {c : Char}
    (h : t.dropWhile p = c :: r) : p c = false := by
  have hne : t.dropWhile p ≠ [] := by simp [h]
  have hhead := List.head_dropWhile_not p hne
  simpa [h] using hhead

/-- A number without exponent has digits and a point (log 13). -/
theorem mem_of_unsignedNumber? {t : List Char} {q : ℚ} (h : unsignedNumber? t = some q) {c : Char}
    (hc : c ∈ t) : c.isDigit = true ∨ c = '.' := by
  rw [← List.takeWhile_append_dropWhile (p := Char.isDigit) (l := t)] at hc
  obtain hc | hc := List.mem_append.mp hc
  · exact .inl (List.mem_takeWhile_imp hc)
  · rw [unsignedNumber?] at h
    split at h
    · next hdrop =>
      rw [hdrop] at hc
      cases hc
    · next frac hdrop =>
      split_ifs at h with hfrac
      obtain ⟨hdigits, -⟩ := Bool.and_eq_true_iff.mp hfrac
      rw [hdrop] at hc
      obtain rfl | hc := List.mem_cons.mp hc
      · exact .inr rfl
      · exact .inl (List.all_eq_true.mp hdigits c hc)
    · cases h

/-- A whole number's text has digits and a sign (log 19). -/
theorem mem_of_isWholeText {t : List Char} (h : isWholeText t = true) {c : Char} (hc : c ∈ t) :
    c.isDigit = true ∨ isSign c = true := by
  cases t with
  | nil => cases hc
  | cons d r =>
    simp only [isWholeText, Bool.and_eq_true, List.all_eq_true] at h
    obtain ⟨-, hdigits⟩ := h
    split_ifs at hdigits with hsign
    · obtain rfl | hc := List.mem_cons.mp hc
      · exact .inr hsign
      · exact .inl (hdigits c hc)
    · exact .inl (hdigits c hc)

/-- The characters of an exponent text (log 19). -/
theorem mem_of_isExponentText {t : List Char} (h : isExponentText t = true) {c : Char} (hc : c ∈ t) :
    c.isDigit = true ∨ c ∈ numberMarks := by
  rw [isExponentText] at h
  split at h
  · cases h
  · next mark r hdrop =>
    obtain ⟨hunsigned, hwhole⟩ := Bool.and_eq_true_iff.mp h
    obtain ⟨q, hq⟩ := Option.isSome_iff_exists.mp hunsigned
    have hmark : isExponentMark mark = true := by simpa using head_of_dropWhile_eq_cons hdrop
    rw [← List.takeWhile_append_dropWhile (p := fun c => !isExponentMark c) (l := t), hdrop] at hc
    obtain hc | hc := List.mem_append.mp hc
    · obtain hdigit | rfl := mem_of_unsignedNumber? hq hc
      · exact .inl hdigit
      · exact .inr (by decide)
    obtain rfl | hc := List.mem_cons.mp hc
    · have he : c = 'e' ∨ c = 'E' := by simpa [isExponentMark] using hmark
      obtain rfl | rfl := he <;> exact .inr (by decide)
    · exact (mem_of_isWholeText hwhole hc).imp_right isSign_of_mark

/-- The characters of a number without its sign (R128). -/
theorem mem_of_magnitude? {t : List Char} {y : QA} (h : magnitude? t = some y) {c : Char}
    (hc : c ∈ t) : c.isDigit = true ∨ c ∈ numberMarks := by
  rw [magnitude?] at h
  split_ifs at h with hexp
  · exact mem_of_isExponentText hexp hc
  · obtain ⟨q, hq, -⟩ := Option.map_eq_some_iff.mp h
    obtain hdigit | rfl := mem_of_unsignedNumber? hq hc
    · exact .inl hdigit
    · exact .inr (by decide)

/-- The characters of a number (R128). -/
theorem mem_of_number? {t : List Char} {y : QA} (h : number? t = some y) {c : Char} (hc : c ∈ t) :
    c.isDigit = true ∨ c ∈ numberMarks := by
  unfold number? at h
  split at h
  · obtain ⟨z, hz, -⟩ := Option.map_eq_some_iff.mp h
    obtain rfl | hc := List.mem_cons.mp hc
    · exact .inr (by decide)
    · exact mem_of_magnitude? hz hc
  · obtain rfl | hc := List.mem_cons.mp hc
    · exact .inr (by decide)
    · exact mem_of_magnitude? h hc
  · exact mem_of_magnitude? h hc

/-- A text that parses ends in `j`, and before it stand a real text and, from the first sign after
position 0 on, an imaginary text (R128). -/
theorem parse_eq_some {t : List Char} {w : Cx QA} (h : parse t = some w) :
    t.getLast? = some 'j' ∧ ∃ c r sign m, t.dropLast = c :: r ++ sign :: m ∧ isSign sign = true ∧
      number? (c :: r) = some w.re ∧ number? (sign :: m) = some w.im := by
  rw [parse] at h
  split at h
  · next hlast =>
    refine ⟨hlast, ?_⟩
    split at h
    · cases h
    · next c r hdrop =>
      simp only at h
      split at h
      · cases h
      · next im hne =>
        split at h
        · next re im hre him =>
          cases h
          obtain ⟨sign, m, hsplit⟩ := List.exists_cons_of_ne_nil hne
          refine ⟨c, r.takeWhile fun d => !isSign d, sign, m, ?_, ?_, hre, hsplit ▸ him⟩
          · rw [hdrop, ← hsplit, List.cons_append, List.takeWhile_append_dropWhile]
          · simpa using head_of_dropWhile_eq_cons hsplit
        · cases h
  · cases h

/-- A real text without a sign after its first character, a sign, further text and `j` (R128). -/
theorem parse_of_first_inner_sign (c : Char) {r : List Char} {sign : Char} (m : List Char)
    (hr : ∀ d ∈ r, isSign d = false) (hsign : isSign sign = true) :
    parse (c :: r ++ sign :: m ++ ['j']) =
      (number? (c :: r)).bind fun re => (number? (sign :: m)).map fun im => ⟨re, im⟩ := by
  have hr' : ∀ d ∈ r, (!isSign d) = true := fun d hd => by rw [hr d hd]; rfl
  have hlast : (c :: r ++ sign :: m ++ ['j']).getLast? = some 'j' := List.getLast?_concat ..
  have hdrop : (c :: r ++ sign :: m ++ ['j']).dropLast = c :: (r ++ sign :: m) := List.dropLast_concat ..
  have htake : (r ++ sign :: m).takeWhile (fun d => !isSign d) = r := by
    rw [List.takeWhile_append_of_pos hr']
    simp [hsign]
  have hrest : (r ++ sign :: m).dropWhile (fun d => !isSign d) = sign :: m := by
    rw [List.dropWhile_append_of_pos hr']
    simp [hsign]
  rw [parse, hlast]
  simp only [hdrop, htake, hrest]
  cases number? (c :: r) <;> cases number? (sign :: m) <;> rfl

/-- Settles O46: a text that parses ends in `j` and has a sign after position 0. -/
theorem parseNeedsMarkAndSign : Obligations.ParseNeedsMarkAndSign := by
  refine ⟨fun t hlast => ?_, fun c r hr => ?_⟩
  · exact Option.eq_none_iff_forall_ne_some.mpr fun w hw => hlast (parse_eq_some hw).1
  · refine Option.eq_none_iff_forall_ne_some.mpr fun w hw => ?_
    obtain ⟨-, c', r', sign, m, hdrop, hsign, -⟩ := parse_eq_some hw
    have htail : r.dropLast = r' ++ sign :: m := by
      rw [← List.tail_cons (a := c) (as := r), ← List.tail_dropLast, hdrop]
      rfl
    have hmem : sign ∈ r := List.mem_of_mem_dropLast (htail ▸ List.mem_append_right _ List.mem_cons_self)
    exact absurd hsign (by rw [isSign_eq_false.mpr (hr sign hmem)]; exact nofun)

/-- Settles O54: the split at the first inner sign, and the sign of a number as its text has it. -/
theorem parseSplitsAtTheFirstInnerSign : Obligations.ParseSplitsAtTheFirstInnerSign := by
  intro c sign r m hr hsign
  refine ⟨parse_of_first_inner_sign c m (fun d hd => isSign_eq_false.mpr (hr d hd))
    (isSign_eq_true.mpr hsign), fun im him => ⟨?_, ?_⟩⟩
  · rintro rfl
    exact magnitude?_nonneg him
  · rintro rfl
    obtain ⟨y, hy, rfl⟩ := Option.map_eq_some_iff.mp him
    rw [QA.toReal_neg]
    exact neg_nonpos_of_nonneg (magnitude?_nonneg hy)

/-- Settles O55: every character before the `j` stands in one of the two numbers. -/
theorem parseRefusesForeignCharacters : Obligations.ParseRefusesForeignCharacters := by
  intro t c hc hdigit hmark
  refine Option.eq_none_iff_forall_ne_some.mpr fun w hw => ?_
  obtain ⟨-, c', r, sign, m, hdrop, -, hre, him⟩ := parse_eq_some hw
  have hknown : c.isDigit = true ∨ c ∈ numberMarks := by
    rw [hdrop] at hc
    obtain hc | hc := List.mem_append.mp hc
    · exact mem_of_number? hre hc
    · exact mem_of_number? him hc
  obtain hknown | hknown := hknown
  · rw [hdigit] at hknown
    cases hknown
  · exact hmark hknown

end Sys2Proof.HostProc

/-! The text of a complex value, written and read back (R127, R128). -/

namespace Sys2Proof.HostProc

/-- A magnitude's text has no sign. -/
theorem isSign_of_mem_magnitudeText {d : Nat} {x : QA} {c : Char} (hc : c ∈ magnitudeText d x) :
    isSign c = false := by
  refine isSign_eq_false.mpr ⟨?_, ?_⟩
  all_goals
    rintro rfl
    obtain h | h := mem_magnitudeText hc <;> revert h <;> decide

/-- A text without a sign is read as a magnitude (R128). -/
theorem number?_of_no_sign {t : List Char} (h : ∀ c ∈ t, isSign c = false) :
    number? t = magnitude? t := by
  unfold number?
  split
  · exact absurd (h '-' List.mem_cons_self) (by decide)
  · exact absurd (h '+' List.mem_cons_self) (by decide)
  · rfl

/-- The number that the text of a real with `d` decimals is read as. -/
def readBack (d : Nat) (x : QA) : QA := (number? (realText d x)).getD QA.zero

/-- A real's text is a number within half a decimal of it. -/
theorem number?_realText (d : Nat) (x : QA) : number? (realText d x) = some (readBack d x) ∧
    |(readBack d x).toReal - x.toReal| ≤ 1 / (2 * 10 ^ d) := by
  suffices h : ∃ y, number? (realText d x) = some y ∧ |y.toReal - x.toReal| ≤ 1 / (2 * 10 ^ d) by
    obtain ⟨y, hy, hle⟩ := h
    rw [readBack, hy]
    exact ⟨rfl, hle⟩
  rw [realText]
  split_ifs with hx
  · obtain ⟨y, hy, hle⟩ := magnitude?_magnitudeText d ((QA.nonneg_iff x).mp hx)
    exact ⟨y, by rw [number?_of_no_sign fun c hc => isSign_of_mem_magnitudeText hc, hy], hle⟩
  · have hneg : 0 ≤ x.neg.toReal := by
      rw [QA.toReal_neg]
      exact neg_nonneg_of_nonpos (not_le.mp (mt (QA.nonneg_iff x).mpr hx)).le
    obtain ⟨y, hy, hle⟩ := magnitude?_magnitudeText d hneg
    refine ⟨y.neg, by rw [number?, hy]; rfl, ?_⟩
    rw [QA.toReal_neg] at hle ⊢
    rw [← abs_neg]
    convert hle using 2
    ring

/-- A real's text has no sign after its first character. -/
theorem exists_realText_eq_cons (d : Nat) (x : QA) :
    ∃ c r, realText d x = c :: r ∧ ∀ e ∈ r, isSign e = false := by
  rw [realText]
  split_ifs
  · obtain ⟨c, r, hsplit⟩ := List.exists_cons_of_ne_nil (magnitudeText_ne_nil d x)
    refine ⟨c, r, hsplit, fun e he => isSign_of_mem_magnitudeText (d := d) (x := x) ?_⟩
    exact hsplit ▸ List.mem_cons_of_mem _ he
  · exact ⟨'-', _, rfl, fun e he => isSign_of_mem_magnitudeText he⟩

/-- An imaginary part's text begins with its sign and is read as the real's text is (R127). -/
theorem exists_imaginaryText_eq_cons (d : Nat) (x : QA) :
    ∃ sign m, (if x.nonneg then ['+'] else []) ++ realText d x = sign :: m ∧ isSign sign = true ∧
      number? (sign :: m) = number? (realText d x) := by
  rw [realText]
  split_ifs
  · refine ⟨'+', _, rfl, rfl, ?_⟩
    rw [number?_of_no_sign fun c hc => isSign_of_mem_magnitudeText hc]
    rfl
  · exact ⟨'-', _, rfl, rfl, rfl⟩

/-- A complex value's text is read part by part (R127, R128). -/
theorem parse_fmtWith (d : QA → Nat) (z : Cx QA) :
    parse (fmtWith d z) = some ⟨readBack (d z.re) z.re, readBack (d z.im) z.im⟩ := by
  obtain ⟨c, r, hre, hr⟩ := exists_realText_eq_cons (d z.re) z.re
  obtain ⟨sign, m, him, hsign, hnumber⟩ := exists_imaginaryText_eq_cons (d z.im) z.im
  have htext : fmtWith d z = c :: r ++ sign :: m ++ ['j'] := by
    rw [fmtWith, List.append_assoc (realText _ _), him, hre]
  rw [htext, parse_of_first_inner_sign c m hr hsign, hnumber, ← hre, (number?_realText _ _).1,
    (number?_realText _ _).1]
  rfl

/-- Settles O52: each part is read back as its own text is. -/
theorem symbolTextReadsBack : Obligations.SymbolTextReadsBack :=
  ⟨fun d z => ⟨_, parse_fmtWith d z, (number?_realText _ _).2, (number?_realText _ _).2⟩,
    fun _ => rfl, fun _ => Nat.le_add_right ..⟩

/-- The texts of the two axis values at six decimals (R127). -/
theorem realText_axis_six : realText 6 QA.constA = "0.707107".toList ∧
    realText 6 QA.constA.neg = "-0.707107".toList := by decide +kernel

/-- The axis values' signs are their own. -/
theorem nonneg_axis : QA.constA.nonneg = true ∧ QA.constA.neg.nonneg = false := by decide +kernel

/-- Settles O53: the two axis values' texts, put together by `fmtWith`. -/
theorem constellationTextAtSixDecimals : Obligations.ConstellationTextAtSixDecimals := by
  obtain ⟨hpos, hneg⟩ := realText_axis_six
  obtain ⟨hsign, hsign'⟩ := nonneg_axis
  simp only [Obligations.ConstellationTextAtSixDecimals, fmtWith, hpos, hneg, hsign, hsign']
  decide

end Sys2Proof.HostProc

/-! Coding and decoding by the host (44_host_composites.md R120 to R122): with a supported length and the
right number of elements both procedures complete, and without noise the vector comes back. -/

namespace Sys2Proof

/-- The `ARG` of a supported length is that length (30_encoding.md R61). -/
theorem InfoLen.toNat_ofNat (n : InfoLen) : (BitVec.ofNat 4 n.toNat).toNat = n.toNat := by
  cases n <;> rfl

/-- The positive axis value exceeds one half (42_qpsk_mapper.md R100). -/
theorem half_lt_toReal_constA : 1 / 2 < QA.constA.toReal := by
  rw [QA.toReal_constA]
  nlinarith [one_div_sqrt_two_sq, one_div_sqrt_two_pos]

/-- The mapped symbols' parts are the codeword at the two axis values (R101, R103). -/
theorem flattenCx_mapSymbols_eq_levels {cw : List Bool} (hlen : cw.length = 20) :
    flattenCx (mapSymbols cw) = levels QA.constA QA.constA.neg cw :=
  flattenCx_mapSymbols cw (by rw [hlen])

/-- Under K3 the search answers the vector whose codeword is received as two levels (41_ml_decoder.md
R95). -/
theorem u2bits_bestCandidate_levels {t : CodeTable} {n : InfoLen} (hK3 : t.K3At n) {p q : QA}
    (hp : 0 < p.toReal) (hq : q.toReal < 0) {v : List Bool} (hv : v.length = n.toNat) :
    u2bits n.toNat (bestCandidate t n (levels p q (encodeVector t n v))) = v :=
  hK3 _ _ (length_u2bits _ _) hv (bestCandidate_levels t n hp hq hv rfl).1

/-- The two axis values are a positive and a negative level (R100). -/
theorem toReal_axis_signs : 0 < QA.constA.toReal ∧ QA.constA.neg.toReal < 0 := by
  have hpos : 0 < QA.constA.toReal := by linarith [half_lt_toReal_constA]
  exact ⟨hpos, by rw [QA.toReal_neg]; exact neg_neg_of_pos hpos⟩

namespace HostProc

open Machine

/-- CODING of `N` bits completes with the codeword's symbols (R121). -/
theorem coding_completes {arg : BitVec 4} {n : InfoLen} (harg : arg.toNat = n.toNat) {v : List Bool}
    (hv : v.length = n.toNat) (s : State) :
    ∃ s', coding arg v s = .ok ((mapSymbols (encodeVector s.table n v)).map realCx, s') ∧
      s'.table = s.table := by
  have hcw : (encodeVector s.table n v).length = 20 := length_encodeVector ..
  have hencode := transact_encode (s := respond 0 [] (s.setNcfg arg)) harg hv
  simp only [respond_table, State.setNcfg_table] at hencode
  simp only [coding, transact_config harg, ok_bind, hencode, resultBits_bitsPayload hcw (by decide),
    transact_modulate hcw, resultCxs_cxsPayload]
  exact ⟨_, rfl, rfl⟩

/-- DECODING of ten finite symbols completes with the first maximum of their parts (R122). -/
theorem decoding_completes {arg : BitVec 4} {n : InfoLen} (harg : arg.toNat = n.toNat)
    {zs : List (Cx QA)} (hzs : zs.length = 10) (s : State) :
    ∃ s', decoding arg (zs.map realCx) s =
      .ok (u2bits n.toNat (bestCandidate s.table n (flattenCx zs)), s') := by
  have hllr : (flattenCx zs).length = 20 := by rw [length_flattenCx, hzs]
  have hdecode (p) := transact_decode (s := respond 20 p (respond 0 [] (s.setNcfg arg))) harg hllr
  simp only [respond_table, State.setNcfg_table] at hdecode
  simp only [decoding, transact_config harg, ok_bind, transact_demodulate hzs, resultNums_numsPayload,
    hdecode, resultBits_u2bits]
  exact ⟨_, rfl⟩

/-- Settles O21: the symbols' parts are the codeword at two levels, so the search answers the smallest
candidate with that codeword. -/
theorem codedVectorsDecodeBack : Obligations.CodedVectorsDecodeBack := by
  intro s n v hv
  have hcw : (encodeVector s.table n v).length = 20 := length_encodeVector ..
  have hsym : (mapSymbols (encodeVector s.table n v)).length = 10 := by rw [length_mapSymbols, hcw]
  obtain ⟨hpos, hneg⟩ := toReal_axis_signs
  obtain ⟨s1, hcoding, htable⟩ := coding_completes n.toNat_ofNat hv s
  obtain ⟨s2, hdecoding⟩ := decoding_completes n.toNat_ofNat hsym s1
  rw [htable, flattenCx_mapSymbols_eq_levels hcw] at hdecoding
  obtain ⟨hbest, hfirst⟩ := bestCandidate_levels s.table n hpos hneg hv rfl
  refine ⟨_, s1, _, s2, hcoding, hdecoding, length_u2bits _ _, hbest, fun u hu heq => ?_,
    fun hK3 => u2bits_bestCandidate_levels hK3 hpos hneg hv⟩
  rw [bits2u_u2bits (bestCandidate_spec s.table n _).1]
  refine not_lt.mp fun hlt => hfirst _ hlt ?_
  rw [← hu, u2bits_bits2u, heq]

/-- A part that is read back keeps an axis value's sign (R127, R128). -/
theorem readBack_axis_signs (d e : Nat) :
    0 < (readBack d QA.constA).toReal ∧ (readBack e QA.constA.neg).toReal < 0 := by
  have hhalf (k : Nat) : (1 : ℝ) / (2 * 10 ^ k) ≤ 1 / 2 := by
    have hpow : (1 : ℝ) ≤ 10 ^ k := one_le_pow₀ (by norm_num)
    exact one_div_le_one_div_of_le (by norm_num) (by linarith)
  have hA := half_lt_toReal_constA
  obtain ⟨hlow, -⟩ := abs_le.mp ((number?_realText d QA.constA).2.trans (hhalf d))
  obtain ⟨-, hhigh⟩ := abs_le.mp ((number?_realText e QA.constA.neg).2.trans (hhalf e))
  rw [QA.toReal_neg] at hhigh
  exact ⟨by linarith, by linarith⟩

/-- The symbols that are read from the texts of `zs`. -/
def readSymbols (zs : List (Cx QA)) : List (Cx QA) :=
  zs.map fun z => ⟨readBack (decimals z.re) z.re, readBack (decimals z.im) z.im⟩

/-- The texts of complex values are read value by value (R127, R128). -/
theorem allSome_parse_fmt (zs : List (Cx QA)) :
    allSome ((zs.map fmt).map parse) = some (readSymbols zs) := by
  refine allSome_eq_some.mpr ?_
  rw [readSymbols, List.map_map, List.map_map]
  exact List.map_congr_left fun z _ => parse_fmtWith decimals z

/-- Through their texts too, the symbols' parts are the codeword at a level for each bit. -/
theorem flattenCx_readSymbols {cw : List Bool} (hlen : cw.length = 20) :
    flattenCx (readSymbols (mapSymbols cw)) = levels (readBack (decimals QA.constA) QA.constA)
      (readBack (decimals QA.constA.neg) QA.constA.neg) cw := by
  have hparts := map_flattenCx (fun x => readBack (decimals x) x) (mapSymbols cw)
  rw [flattenCx_mapSymbols cw (by rw [hlen]), List.map_map] at hparts
  refine hparts.symm.trans (List.map_congr_left fun b _ => ?_)
  cases b <;> rfl

/-- Settles O51: the texts keep the two levels' signs, and under K3 two levels decode to the vector. -/
theorem textsOfCodedVectorDecodeBack : Obligations.TextsOfCodedVectorDecodeBack := by
  intro s n v hv hK3
  have hcw : (encodeVector s.table n v).length = 20 := length_encodeVector ..
  have hsym : (mapSymbols (encodeVector s.table n v)).length = 10 := by rw [length_mapSymbols, hcw]
  have hread : (readSymbols (mapSymbols (encodeVector s.table n v))).length = 10 :=
    (List.length_map _).trans hsym
  obtain ⟨hpos, hneg⟩ := readBack_axis_signs (decimals QA.constA) (decimals QA.constA.neg)
  obtain ⟨s1, hcoding, htable⟩ := coding_completes n.toNat_ofNat hv s
  obtain ⟨s2, hdecoding⟩ := decoding_completes n.toNat_ofNat hread s1
  rw [htable, flattenCx_readSymbols hcw, u2bits_bestCandidate_levels hK3 hpos hneg hv] at hdecoding
  refine ⟨(mapSymbols (encodeVector s.table n v)).map fmt, s1, s2, ?_, by rw [List.length_map, hsym], ?_⟩
  · rw [codingText, withArg_supported]
    simp only [hcoding, ok_bind, finiteCxs?_realCx]
    rfl
  · rw [decodingText, allSome_parse_fmt]
    exact (withArg_supported n _).trans hdecoding

end HostProc
end Sys2Proof

/-! The host's failures (R120 to R122): the cause of the first check that fails, whatever the size of the
input. -/

namespace Sys2Proof.HostProc

open Machine

/-- The procedure ends without a result and reports this cause (60_exceptions.md R131). -/
def FailsWith {α : Type} (x : Except Stop α) (c : Cause) : Prop :=
  ∃ e, x = .error e ∧ e.cause? = some c

/-- A failure of the first command ends the procedure (R120). -/
theorem FailsWith.bind {α β : Type} {x : Except Stop α} {c : Cause} (h : FailsWith x c)
    (f : α → Except Stop β) : FailsWith (x >>= f) c := by
  obtain ⟨e, rfl, hc⟩ := h
  exact ⟨e, rfl, hc⟩

/-- A failure is of the class of its cause (60_exceptions.md R130). -/
theorem FailsWith.errorClass {α : Type} {x : Except Stop α} {c : Cause} (h : FailsWith x c) :
    ∃ e, x = .error e ∧ e.cause? = some c ∧ e.errorClass? = some c.errorClass := by
  obtain ⟨e, hx, hc⟩ := h
  refine ⟨e, hx, hc, ?_⟩
  cases e <;> cases hc <;> rfl

/-- A command whose operation raises a cause fails with it (R120). -/
theorem transact_failsWith {i : Instr} {s : State} {c : Cause} (hwf : WellFormed i)
    (hexec : exec i s = .next (raise c s)) : FailsWith (transact i s) c := by
  rw [transact_eq_takeResponse hwf, hexec, takeResponse_raise]
  exact ⟨_, rfl, rfl⟩

/-- A command whose operation raises the cause of its length check fails with it, also where no command
word can count the payload (log 17). -/
theorem transact_failsWith_lengthCause {i : Instr} {s : State} {c : Cause}
    (hc : lengthCause? i = some c) (hexec : exec i s = .next (raise c s)) :
    FailsWith (transact i s) c := by
  by_cases hlong : Config.maxLen < i.len
  · rw [transact, if_pos hlong, hc]
    exact ⟨_, rfl, rfl⟩
  · exact transact_failsWith (not_lt.mp hlong) hexec

/-- The host's CONFIG of an unsupported length (R81, R121). -/
theorem transact_config_failsWith {arg : BitVec 4}
    (harg : ¬ (arg = 2 ∨ arg = 4 ∨ arg = 6 ∨ arg = 8 ∨ arg = 11)) (s : State) :
    FailsWith (transact (.config arg) s) .unsupportedN :=
  transact_failsWith (Nat.zero_le _) (exec_config_unsupported harg s)

/-- An unsupported length from 0 to 15 is an unsupported `ARG`. -/
theorem ofInt_unsupported {n : Int} (h0 : 0 ≤ n) (h16 : n < 16)
    (hn : ¬ (n = 2 ∨ n = 4 ∨ n = 6 ∨ n = 8 ∨ n = 11)) :
    ¬ (BitVec.ofInt 4 n = 2 ∨ BitVec.ofInt 4 n = 4 ∨ BitVec.ofInt 4 n = 6 ∨ BitVec.ofInt 4 n = 8 ∨
      BitVec.ofInt 4 n = 11) := by
  revert hn
  interval_cases n <;> decide

/-- A length that is not supported fails with UNSUPPORTED_N whatever integer it is (log 16), if the
procedure does so for the arguments of CONFIG. -/
theorem withArg_failsWith {α : Type} {n : Int} (hn : ¬ (n = 2 ∨ n = 4 ∨ n = 6 ∨ n = 8 ∨ n = 11))
    {run : BitVec 4 → Except Stop α}
    (hrun : ∀ arg : BitVec 4, ¬ (arg = 2 ∨ arg = 4 ∨ arg = 6 ∨ arg = 8 ∨ arg = 11) →
      FailsWith (run arg) .unsupportedN) : FailsWith (withArg n run) .unsupportedN := by
  rw [withArg]
  split_ifs with hrange
  · exact hrun _ (ofInt_unsupported hrange.1 hrange.2 hn)
  · exact ⟨_, rfl, rfl⟩

/-- CODING of another number of bits than `N` (R121). -/
theorem coding_failsWith_infoLen {arg : BitVec 4} {n : InfoLen} (harg : arg.toNat = n.toNat)
    {bits : List Bool} (hlen : bits.length ≠ n.toNat) (s : State) :
    FailsWith (coding arg bits s) .infoLen := by
  have hencode : FailsWith (transact (.encode bits) (respond 0 [] (s.setNcfg arg))) .infoLen :=
    transact_failsWith_lengthCause rfl (exec_encode_of_length_ne harg hlen)
  rw [coding, transact_config harg]
  exact hencode.bind _

/-- DECODING of another number of symbols than 10 (R122). -/
theorem decoding_failsWith_symLen {arg : BitVec 4} {n : InfoLen} (harg : arg.toNat = n.toNat)
    {sym : List (Cx NumWord)} (hlen : sym.length ≠ 10) (s : State) :
    FailsWith (decoding arg sym s) .symLen := by
  have hdemodulate : FailsWith (transact (.demodulate sym) (respond 0 [] (s.setNcfg arg))) .symLen :=
    transact_failsWith_lengthCause rfl (exec_demodulate_of_length_ne hlen _)
  rw [decoding, transact_config harg]
  exact hdemodulate.bind _

/-- Well-formed texts are read as as many symbols (R122, R128). -/
theorem exists_allSome_parse {texts : List (List Char)} (h : ∀ t ∈ texts, parse t ≠ none) :
    ∃ zs, allSome (texts.map parse) = some zs ∧ zs.length = texts.length := by
  refine ⟨texts.map fun t => (parse t).getD ⟨QA.zero, QA.zero⟩, allSome_eq_some.mpr ?_, List.length_map _⟩
  rw [List.map_map]
  refine List.map_congr_left fun t ht => ?_
  obtain ⟨z, hz⟩ := Option.ne_none_iff_exists'.mp (h t ht)
  simp [hz]

/-- Settles O49: CONFIG or the host refuses the length, and the length check of ENCODE or DEMODULATE the
input. -/
theorem hostModesFailWithTheirCause : Obligations.HostModesFailWithTheirCause := by
  refine ⟨fun n bits s hn => ?_, fun n bits s hlen => ?_, fun n texts s hparse hn => ?_,
    fun n texts s hparse hlen => ?_⟩
  · refine FailsWith.errorClass (withArg_failsWith hn fun arg harg => ?_)
    exact ((transact_config_failsWith harg s).bind _).bind _
  · rw [codingText, withArg_supported]
    exact ((coding_failsWith_infoLen n.toNat_ofNat hlen s).bind _).errorClass
  · obtain ⟨zs, hzs, -⟩ := exists_allSome_parse hparse
    rw [decodingText, hzs]
    refine FailsWith.errorClass (withArg_failsWith hn fun arg harg => ?_)
    exact (transact_config_failsWith harg s).bind _
  · obtain ⟨zs, hzs, hcount⟩ := exists_allSome_parse hparse
    have hsym : (zs.map realCx).length ≠ 10 := by rwa [List.length_map, hcount]
    rw [decodingText, hzs]
    simp only [withArg_supported]
    exact (decoding_failsWith_symLen n.toNat_ofNat hsym s).errorClass

/-- Settles O50: one text that is not read leaves the symbols without values. -/
theorem malformedStringEndsDecoding : Obligations.MalformedStringEndsDecoding := by
  refine ⟨rfl, fun n texts s t ht hparse => ?_⟩
  rw [decodingText, allSome_eq_none (List.mem_map.mpr ⟨t, ht, hparse⟩)]

end Sys2Proof.HostProc

/-! SIMULATE (R123, R129): every trial is counted, and without noise every trial succeeds. -/

namespace Sys2Proof.Machine

/-- A connected source that answers 0 gives draws of 0 (10_state.md R30). -/
theorem State.draws?_eq_replicate_zero {s : State} {k : Nat}
    (h : ∀ i, i < k → s.noise[i]? = some (.real ⟨0, 0⟩)) :
    s.draws? k = some (List.replicate k ⟨0, 0⟩) := by
  refine allSome_eq_some.mpr ?_
  rw [List.map_replicate, ← List.length_range (n := k), ← List.map_const', List.length_range]
  refine List.map_congr_left fun i hi => ?_
  rw [State.draw?, h i (List.mem_range.mp hi)]
  rfl

end Sys2Proof.Machine

namespace Sys2Proof.HostProc

open Machine

/-- Settles O48: the mode takes 10 dB for a missing SNR. -/
theorem unspecifiedSnrIsTenDecibels : Obligations.UnspecifiedSnrIsTenDecibels := fun _ _ _ _ => rfl

/-- Settles O44: SIMULATE completes, and what completes is counted. -/
theorem simulationCountsEveryTrial : Obligations.SimulationCountsEveryTrial := by
  intro n iterations x draw s hpos hnoise
  obtain ⟨t, s', hsim, hdrawn⟩ := simulate_completes n.toNat_ofNat hpos x draw hnoise
  exact ⟨t, s', hsim, (simulate_counts hsim).2, hdrawn⟩

/-- Under K3 a trial whose draws are 0 gets its vector back at any SNR (41_ml_decoder.md R95). -/
theorem receivedVector_noiseless {t : CodeTable} {n : InfoLen} (hK3 : t.K3At n) (x : QA) {v : List Bool}
    (hv : v.length = n.toNat) : receivedVector t n x (List.replicate 20 ⟨0, 0⟩) v = v := by
  have hcw : (encodeVector t n v).length = 20 := length_encodeVector ..
  have hdraws : (List.replicate 20 (⟨0, 0⟩ : QA)).length =
      2 * (mapSymbols (encodeVector t n v)).length := by
    rw [length_mapSymbols, hcw, List.length_replicate]
  obtain ⟨hpos, hneg⟩ := toReal_axis_signs
  rw [receivedVector, noisyCopy_zero hdraws fun _ => List.eq_of_mem_replicate,
    flattenCx_mapSymbols_eq_levels hcw, u2bits_bestCandidate_levels hK3 hpos hneg hv]

/-- Under K3, in a configured block whose connected source answers 0 to every draw, every trial is a
success. -/
theorem trials_noiseless {n : InfoLen} {x : QA} (vs : List (List Bool))
    (hvs : ∀ v ∈ vs, v.length = n.toNat) (t : Tally) {s : State} (hK3 : s.table.K3At n)
    (hcfg : s.ncfg.toNat = n.toNat) (hsnr : s.snr = some x)
    (hnoise : ∀ i, i < 20 * vs.length → s.noise[i]? = some (.real ⟨0, 0⟩)) :
    ∃ s', trials vs t s = .ok (⟨t.success + vs.length, t.failure⟩, s') := by
  induction vs generalizing t s with
  | nil => exact ⟨s, rfl⟩
  | cons v vs ih =>
    obtain ⟨hv, hvs⟩ := List.forall_mem_cons.mp hvs
    rw [List.length_cons] at hnoise
    have hdraws := State.draws?_eq_replicate_zero (s := s) (k := 20) fun i hi => hnoise i (by lia)
    obtain ⟨rs, htrial⟩ := trial_eq hcfg hsnr hdraws hv
    rw [receivedVector_noiseless hK3 x hv, beq_self_eq_true] at htrial
    have hlater (i : Nat) (hi : i < 20 * vs.length) :
        (s.noise.drop 20)[i]? = some (.real ⟨0, 0⟩) := by
      rw [List.getElem?_drop]
      exact hnoise _ (by lia)
    obtain ⟨s', hrun⟩ := ih hvs { t with success := t.success + 1 }
      (s := { s.advanceNoise 20 with responses := s.responses ++ rs }) hK3 hcfg hsnr hlater
    refine ⟨s', ?_⟩
    rw [trials, htrial]
    simp only [hrun, List.length_cons, Nat.add_assoc, Nat.add_comm 1]

/-- Settles O45: CONFIG and SETSNR make the block ready, and every trial is noiseless. -/
theorem noiselessSimulationNeverFails : Obligations.NoiselessSimulationNeverFails := by
  intro n iterations x draw s hpos hK3 hnoise
  have harg := n.toNat_ofNat
  obtain ⟨s', hrun⟩ := trials_noiseless (n := n) (x := x)
    ((List.range iterations).map fun k => (List.range (BitVec.ofNat 4 n.toNat).toNat).map (draw k))
    (by simp [harg]) ⟨0, 0⟩
    (s := respond 0 [] ((respond 0 [] (s.setNcfg (BitVec.ofNat 4 n.toNat))).setSnr x))
    hK3 harg rfl (by simpa using hnoise)
  refine ⟨s', ?_⟩
  have hcount : ¬ (iterations : Int) ≤ 0 := by lia
  rw [List.length_map, List.length_range, Nat.zero_add] at hrun
  simp only [simulate, if_neg hcount, transact_config harg, ok_bind, transact_setsnr, Int.toNat_natCast,
    hrun]

end Sys2Proof.HostProc
